-- ==== Sys2Proof/Word.lean ====
section
/-! DEFINITION. The two word types of GBE-CORE (00_scope.md R7, R9, R10): unsigned, bit 0 least significant. -/

namespace Sys2Proof

/-- An 8-bit register value, always in [0, 255] (10_state.md R22). -/
abbrev Byte := BitVec 8

/-- A 16-bit register-pair value (10_state.md R30). -/
abbrev Word := BitVec 16

end Sys2Proof
end

