-- ==== Sys2Proof/Config.lean ====
section
/-! DEFINITION. The one open parameter of GBE-CORE, `init_state` (00_scope.md R8, 70_reset_and_hazards.md R230),
and the value the model names for `State.reset`. No value of a legal instruction is left open by the spec
(93_implementation_defined.md U11), so there is no free value here. -/

namespace Sys2Proof

/-- The data state the host supplies at launch: any value in each register, any bit in each flag (R230). -/
structure InitState where
  a : Byte
  b : Byte
  c : Byte
  d : Byte
  e : Byte
  h : Byte
  l : Byte
  zero : Bool
  subtract : Bool
  halfCarry : Bool
  carry : Bool
deriving DecidableEq, Repr

/-- DESIGN CHOICE (log entry 1), unsafe: the spec fixes no launch value (R230, R232) and forbids taking the
LR35902 post-boot values as a default (R233); `State.reset` uses all zero. `State.launch` takes any `InitState`. -/
def Config.initState : InitState where
  a := 0
  b := 0
  c := 0
  d := 0
  e := 0
  h := 0
  l := 0
  zero := false
  subtract := false
  halfCarry := false
  carry := false

end Sys2Proof
end

