-- ==== Sys2Proof/Syntax.lean ====
section
/-! DEFINITION. The abstract instruction of GBE-CORE (30_encoding.md R60): 21 variants, each with operands from its
legal set only (R61), so that an illegal combination cannot be expressed. -/

namespace Sys2Proof

/-- An r8 target (R61). There is no `(HL)` target: GBE-CORE has no memory (20_memory.md R50). -/
inductive Reg8 where
  | a | b | c | d | e | h | l
deriving DecidableEq, Repr

/-- An r16 target, the operand of ADDHL (R61). AF and SP are none. -/
inductive Reg16 where
  | bc | de | hl
deriving DecidableEq, Repr

/-- The instruction, one constructor per row of `spec/opcode_table.json` (R60). The bit index of BIT, SET and RESET is
a number in [0, 7] (45_bit.md R190). -/
inductive Instr where
  | add (r : Reg8)
  | adc (r : Reg8)
  | sub (r : Reg8)
  | sbc (r : Reg8)
  | and (r : Reg8)
  | xor (r : Reg8)
  | or (r : Reg8)
  | cp (r : Reg8)
  | inc (r : Reg8)
  | dec (r : Reg8)
  | addhl (rr : Reg16)
  | rlca
  | rrca
  | rla
  | rra
  | cpl
  | scf
  | ccf
  | bit (b : Fin 8) (r : Reg8)
  | reset (b : Fin 8) (r : Reg8)
  | set (b : Fin 8) (r : Reg8)
deriving DecidableEq, Repr

end Sys2Proof
end

