-- ==== Sys2Proof/WellFormed.lean ====
section
/-! DEFINITION. Well-formedness. `Instr` holds legal operands only, so every `Instr` is well formed by its type
(30_encoding.md R61). A host might still present an abstract value outside that guarantee (60_exceptions.md R210, codes 3
and 4; 93_implementation_defined.md U1): `PresentedInstr` can hold such a value, and the checks here refuse it. -/

namespace Sys2Proof

/-- Everything that could be named as an operand: the seven registers, the packed flags byte F, and the four pairs. -/
inductive Operand where
  | a | b | c | d | e | h | l | f | af | bc | de | hl
deriving DecidableEq, Repr

/-- The variants whose operand is an r8 target and nothing else (R60, R61). -/
inductive RegOp where
  | add | adc | sub | sbc | and | xor | or | cp | inc | dec
deriving DecidableEq, Repr

/-- The variants without operand (R60; 90_conflicts.md C10: the rotates take none). -/
inductive PlainOp where
  | rlca | rrca | rla | rra | cpl | scf | ccf
deriving DecidableEq, Repr

/-- The bit-indexed variants (R61). -/
inductive BitOp where
  | bit | reset | set
deriving DecidableEq, Repr

/-- An abstract instruction value as a host may present it to `execute`, its operands unchecked (R213, `validate`). -/
inductive PresentedInstr where
  | reg (op : RegOp) (t : Operand)
  | addhl (t : Operand)
  | plain (op : PlainOp)
  | bitwise (op : BitOp) (b : Nat) (t : Operand)
deriving DecidableEq, Repr

/-- The reasons of the programming-error fault (R210). -/
inductive FaultReason where
  /-- Code 1: the bytes are not one of the 248 legal encodings. -/
  | notInCore
  /-- Code 2: a `0xCB` prefix with no second byte. -/
  | truncated
  /-- Code 3: an abstract instruction names an operand outside its legal set. -/
  | operandOutOfSet
  /-- Code 4: an abstract BIT, SET or RESET carries a bit index outside [0, 7]. -/
  | bitIndexOutOfRange
deriving DecidableEq, Repr

/-- The code R210 gives each reason. -/
def FaultReason.code : FaultReason → Nat
  | .notInCore => 1
  | .truncated => 2
  | .operandOutOfSet => 3
  | .bitIndexOutOfRange => 4

/-- The r8 target an operand names, if it is one (R61). -/
def Operand.toReg8 : Operand → Option Reg8
  | .a => some .a
  | .b => some .b
  | .c => some .c
  | .d => some .d
  | .e => some .e
  | .h => some .h
  | .l => some .l
  | .f | .af | .bc | .de | .hl => none

/-- The r16 target an operand names, if it is one (R61: AF is not). -/
def Operand.toReg16 : Operand → Option Reg16
  | .bc => some .bc
  | .de => some .de
  | .hl => some .hl
  | .a | .b | .c | .d | .e | .h | .l | .f | .af => none

/-- The operand is in the variant's legal set (R61). -/
def PresentedInstr.operandLegal : PresentedInstr → Bool
  | .reg _ t => t.toReg8.isSome
  | .addhl t => t.toReg16.isSome
  | .plain _ => true
  | .bitwise _ _ t => t.toReg8.isSome

/-- The bit index, where there is one, is in [0, 7] (R61). -/
def PresentedInstr.bitIndexLegal : PresentedInstr → Bool
  | .bitwise _ b _ => decide (b < 8)
  | .reg _ _ | .addhl _ | .plain _ => true

/-- A presented value that is an instruction of R60. -/
def PresentedInstr.wellFormed (v : PresentedInstr) : Bool :=
  v.operandLegal && v.bitIndexLegal

end Sys2Proof
end

