-- ==== Sys2Proof/Decode.lean ====
section
/-! DEFINITION. The decoder of 30_encoding.md R72 (total on any bytes), the check of an abstract value (60_exceptions.md
R213, `validate`), and the encoder written from the formats of R66. The byte encoding is the spec's decision D3. -/

namespace Sys2Proof

/-- The decoder's answer: an instruction and its length, or a verdict (R72). -/
inductive Decoded where
  | instr (i : Instr) (length : Nat)
  /-- Not one of the 248 legal encodings; `length` is the number of bytes looked at (1 or 2; 0 where
  there is none). -/
  | notInCore (length : Nat)
  /-- A `0xCB` with no byte after it. -/
  | truncated
deriving DecidableEq, Repr

/-- The length R72 returns beside its answer. -/
def Decoded.length : Decoded → Nat
  | .instr _ n => n
  | .notInCore n => n
  | .truncated => 1

/-- The r8 target field (R62); `110` names the memory operand GBE-CORE does not have. -/
def reg8OfCode (c : BitVec 3) : Option Reg8 :=
  match c.toNat with
  | 0 => some .b
  | 1 => some .c
  | 2 => some .d
  | 3 => some .e
  | 4 => some .h
  | 5 => some .l
  | 7 => some .a
  | _ => none

/-- The r16 target field (R63); `11` names the stack pointer GBE-CORE does not have. -/
def reg16OfCode (c : BitVec 2) : Option Reg16 :=
  match c.toNat with
  | 0 => some .bc
  | 1 => some .de
  | 2 => some .hl
  | _ => none

/-- The F_ALU operation field (R68); the last of the eight codes, `111`, is CP. -/
def aluInstr (o : BitVec 3) (r : Reg8) : Instr :=
  match o.toNat with
  | 0 => .add r
  | 1 => .adc r
  | 2 => .sub r
  | 3 => .sbc r
  | 4 => .and r
  | 5 => .xor r
  | 6 => .or r
  | _ => .cp r

/-- The F_ACC operation field (R66); `100` is illegal. -/
def accInstr (o : BitVec 3) : Option Instr :=
  match o.toNat with
  | 0 => some .rlca
  | 1 => some .rrca
  | 2 => some .rla
  | 3 => some .rra
  | 5 => some .cpl
  | 6 => some .scf
  | 7 => some .ccf
  | _ => none

/-- The CB kind field (R66); `00` is illegal. -/
def cbInstr (k : BitVec 2) (b : Fin 8) (r : Reg8) : Option Instr :=
  match k.toNat with
  | 1 => some (.bit b r)
  | 2 => some (.reset b r)
  | 3 => some (.set b r)
  | _ => none

/-- The one-byte forms (R65, R69): the instruction a byte other than `0xCB` stands for. -/
def instrOfByte (b0 : Byte) : Option Instr :=
  if b0.extractLsb 7 6 = 0b10#2 then
    (reg8OfCode (b0.extractLsb 2 0)).map (aluInstr (b0.extractLsb 5 3))
  else if b0.extractLsb 7 6 = 0b00#2 ∧ b0.extractLsb 2 1 = 0b10#2 then
    (reg8OfCode (b0.extractLsb 5 3)).map (if b0.extractLsb 0 0 = 0b0#1 then Instr.inc else Instr.dec)
  else if b0.extractLsb 7 6 = 0b00#2 ∧ b0.extractLsb 3 0 = 0b1001#4 then
    (reg16OfCode (b0.extractLsb 5 4)).map Instr.addhl
  else if b0.extractLsb 7 6 = 0b00#2 ∧ b0.extractLsb 2 0 = 0b111#3 then
    accInstr (b0.extractLsb 5 3)
  else
    none

/-- The second byte of a CB form (R70). The bit index is the field as an unsigned number (R64). -/
def instrOfCBByte (b1 : Byte) : Option Instr :=
  (reg8OfCode (b1.extractLsb 2 0)).bind fun r => cbInstr (b1.extractLsb 7 6) (b1.extractLsb 5 3).toFin r

/-- The answer for a form of `n` bytes: the instruction if there is one, else NotInCore (R72). -/
def Decoded.ofOption (n : Nat) : Option Instr → Decoded
  | some i => .instr i n
  | none => .notInCore n

/-- The decoder (R72). It depends on the bytes alone (R73) and reads one instruction from their front. No byte at all is a
byte sequence outside the legal encodings, so NotInCore (R75; DEDUCED, log entry 4). -/
def decode : List Byte → Decoded
  | [] => .notInCore 0
  | b0 :: rest =>
    if b0 = 0xCB#8 then
      match rest with
      | [] => .truncated
      | b1 :: _ => Decoded.ofOption 2 (instrOfCBByte b1)
    else
      Decoded.ofOption 1 (instrOfByte b0)

/-- The instruction of a `RegOp` on a legal target. -/
def RegOp.toInstr : RegOp → Reg8 → Instr
  | .add => .add
  | .adc => .adc
  | .sub => .sub
  | .sbc => .sbc
  | .and => .and
  | .xor => .xor
  | .or => .or
  | .cp => .cp
  | .inc => .inc
  | .dec => .dec

/-- The instruction of a `PlainOp`. -/
def PlainOp.toInstr : PlainOp → Instr
  | .rlca => .rlca
  | .rrca => .rrca
  | .rla => .rla
  | .rra => .rra
  | .cpl => .cpl
  | .scf => .scf
  | .ccf => .ccf

/-- The instruction of a `BitOp` on legal operands. -/
def BitOp.toInstr : BitOp → Fin 8 → Reg8 → Instr
  | .bit => .bit
  | .reset => .reset
  | .set => .set

/-- The check of an abstract value (R213): the operand first, then the bit index (R214). -/
def validate : PresentedInstr → Except FaultReason Instr
  | .reg op t =>
    match t.toReg8 with
    | some r => .ok (op.toInstr r)
    | none => .error .operandOutOfSet
  | .addhl t =>
    match t.toReg16 with
    | some rr => .ok (.addhl rr)
    | none => .error .operandOutOfSet
  | .plain op => .ok op.toInstr
  | .bitwise op b t =>
    match t.toReg8 with
    | none => .error .operandOutOfSet
    | some r => if hb : b < 8 then .ok (op.toInstr ⟨b, hb⟩ r) else .error .bitIndexOutOfRange

/-- An r8 target as an operand. -/
def Reg8.toOperand : Reg8 → Operand
  | .a => .a
  | .b => .b
  | .c => .c
  | .d => .d
  | .e => .e
  | .h => .h
  | .l => .l

/-- An r16 target as an operand. -/
def Reg16.toOperand : Reg16 → Operand
  | .bc => .bc
  | .de => .de
  | .hl => .hl

/-- The abstract value a host presents for an instruction (R37). -/
def Instr.present : Instr → PresentedInstr
  | .add r => .reg .add r.toOperand
  | .adc r => .reg .adc r.toOperand
  | .sub r => .reg .sub r.toOperand
  | .sbc r => .reg .sbc r.toOperand
  | .and r => .reg .and r.toOperand
  | .xor r => .reg .xor r.toOperand
  | .or r => .reg .or r.toOperand
  | .cp r => .reg .cp r.toOperand
  | .inc r => .reg .inc r.toOperand
  | .dec r => .reg .dec r.toOperand
  | .addhl rr => .addhl rr.toOperand
  | .rlca => .plain .rlca
  | .rrca => .plain .rrca
  | .rla => .plain .rla
  | .rra => .plain .rra
  | .cpl => .plain .cpl
  | .scf => .plain .scf
  | .ccf => .plain .ccf
  | .bit b r => .bitwise .bit b.val r.toOperand
  | .reset b r => .bitwise .reset b.val r.toOperand
  | .set b r => .bitwise .set b.val r.toOperand

/-- The r8 code (R62). -/
def Reg8.code : Reg8 → BitVec 3
  | .b => 0b000
  | .c => 0b001
  | .d => 0b010
  | .e => 0b011
  | .h => 0b100
  | .l => 0b101
  | .a => 0b111

/-- The r16 code (R63). -/
def Reg16.code : Reg16 → BitVec 2
  | .bc => 0b00
  | .de => 0b01
  | .hl => 0b10

/-- F_ALU: `1 0 o o o r r r` (R66). -/
def encodeAlu (o : BitVec 3) (r : Reg8) : Byte :=
  0b10#2 ++ o ++ r.code

/-- F_INCDEC: `0 0 r r r 1 0 d` (R66). -/
def encodeIncDec (r : Reg8) (d : BitVec 1) : Byte :=
  0b00#2 ++ r.code ++ 0b10#2 ++ d

/-- F_ADDHL: `0 0 p p 1 0 0 1` (R66). -/
def encodeAddHl (rr : Reg16) : Byte :=
  0b00#2 ++ rr.code ++ 0b1001#4

/-- F_ACC: `0 0 o o o 1 1 1` (R66). -/
def encodeAcc (o : BitVec 3) : Byte :=
  0b00#2 ++ o ++ 0b111#3

/-- F_CB, its second byte: `k k b b b r r r` (R66). -/
def encodeCBByte (k : BitVec 2) (b : Fin 8) (r : Reg8) : Byte :=
  k ++ (BitVec.ofFin b : BitVec 3) ++ r.code

/-- The bytes of an instruction, first byte first (R66, R67). -/
def encode : Instr → List Byte
  | .add r => [encodeAlu 0b000 r]
  | .adc r => [encodeAlu 0b001 r]
  | .sub r => [encodeAlu 0b010 r]
  | .sbc r => [encodeAlu 0b011 r]
  | .and r => [encodeAlu 0b100 r]
  | .xor r => [encodeAlu 0b101 r]
  | .or r => [encodeAlu 0b110 r]
  | .cp r => [encodeAlu 0b111 r]
  | .inc r => [encodeIncDec r 0]
  | .dec r => [encodeIncDec r 1]
  | .addhl rr => [encodeAddHl rr]
  | .rlca => [encodeAcc 0b000]
  | .rrca => [encodeAcc 0b001]
  | .rla => [encodeAcc 0b010]
  | .rra => [encodeAcc 0b011]
  | .cpl => [encodeAcc 0b101]
  | .scf => [encodeAcc 0b110]
  | .ccf => [encodeAcc 0b111]
  | .bit b r => [0xCB, encodeCBByte 0b01 b r]
  | .reset b r => [0xCB, encodeCBByte 0b10 b r]
  | .set b r => [0xCB, encodeCBByte 0b11 b r]

/-- An opcode-table word as the bytes of the instruction stream (log entry 5). A row of one byte is that byte. For the
two-byte rows the table writes the prefix as the HIGH byte of its 16-bit number (`match` `0xCB40`), so a word whose high
byte is `0xCB` is read high byte first; any other 16-bit word has its first byte in bits 7 to 0. -/
def tableBytes (nbits w : Nat) : List Byte :=
  if nbits ≤ 8 then
    [BitVec.ofNat 8 w]
  else if (w >>> 8) % 256 = 0xCB then
    [BitVec.ofNat 8 (w >>> 8), BitVec.ofNat 8 w]
  else
    [BitVec.ofNat 8 w, BitVec.ofNat 8 (w >>> 8)]

/-- The instruction the decoder reads from an opcode-table word. -/
def decodeTableWord (nbits w : Nat) : Option Instr :=
  match decode (tableBytes nbits w) with
  | .instr i _ => some i
  | .notInCore _ | .truncated => none

end Sys2Proof
end

