-- ==== Sys2Proof/Machine/State.lean ====
section
/-! DEFINITION. The state of GBE-CORE (10_state.md R20, R21, R34), the state of the reference harness around it
(70_reset_and_hazards.md R236), the two ways a step can stop, and the state after reset (R230 to R232). -/

namespace Sys2Proof.Machine

/-- The four condition flags (10_state.md R25). -/
structure Flags where
  z : Bool
  n : Bool
  h : Bool
  c : Bool
deriving DecidableEq, Repr

/-- The register file: seven 8-bit registers and the flags (R20; 90_conflicts.md C1). The byte F and the pairs AF, BC, DE
and HL are views of it, not stored (R30, R32). -/
structure RegFile where
  a : Byte
  b : Byte
  c : Byte
  d : Byte
  e : Byte
  h : Byte
  l : Byte
  flags : Flags
deriving DecidableEq, Repr

/-- What `execute` is handed: instruction bytes, or an abstract value (R37, R213). -/
inductive Input where
  | bytes (bs : List Byte)
  | value (v : PresentedInstr)
deriving DecidableEq, Repr

/-- What a fault records (60_exceptions.md R210): the instruction bytes, or the instruction value. -/
inductive FaultInfo where
  | bytes (bs : List Byte)
  | value (v : PresentedInstr)
deriving DecidableEq, Repr

/-- The outcome `Fault(reason, info)` of R211. -/
structure FaultReport where
  reason : FaultReason
  info : FaultInfo
deriving DecidableEq, Repr

/-- The machine. `regs` and `faulted` are the 61 bits of R21. `report` is the fault outcome delivered to the host (R211;
the model's own field, log entry 2). `program` and `pc` are the reference harness's byte list and offset (R236). -/
structure State where
  regs : RegFile
  faulted : Bool
  report : Option FaultReport
  program : List Byte
  pc : Nat
deriving DecidableEq, Repr

/-- How the machine stops. -/
inductive Fault where
  /-- `execute` (and so the step) on a core whose `faulted` latch is set: "the core is stuck" (R216). Safe: the spec gives
  no step here. -/
  | stuck
deriving DecidableEq, Repr

/-- Why the model gives no next state. -/
inductive Refusal where
  /-- Raised by an arm of `exec` whose instruction has no meaning yet. Safe. No arm does. -/
  | notModelled (mnemonic : String)
  /-- Raised by the step when the harness offset is the end of the program: the run's only normal end (R236), so there is
  no further call of `execute`. Safe (log entry 3). -/
  | programEnd
deriving DecidableEq, Repr

/-- The three outcomes of a step of this machine. -/
abbrev Result := Host.Outcome State Fault Refusal

/-- The register file a launch leaves: every register and flag from `init_state` (R230). -/
def RegFile.ofInit (d : InitState) : RegFile where
  a := d.a
  b := d.b
  c := d.c
  d := d.d
  e := d.e
  h := d.h
  l := d.l
  flags := { z := d.zero, n := d.subtract, h := d.halfCarry, c := d.carry }

/-- The machine right after reset: `faulted` is 0 (R231), the harness offset is 0 (R232), no program is loaded (log entry
3), and the registers and flags, which the spec leaves to `init_state`, are `Config.initState` (log entry 1). -/
def State.reset : State where
  regs := RegFile.ofInit Config.initState
  faulted := false
  report := none
  program := []
  pc := 0

end Sys2Proof.Machine
end

