-- ==== Sys2Proof/Machine/Flags.lean ====
section
/-! DEFINITION. The flags codec (10_state.md R27, R28) and the ALU primitives with their flag outputs (40_arith8.md R100,
R101; 41_arith16.md R130; 44_rotate.md; 45_bit.md). Every condition is evaluated on exact integers (00_scope.md R12). -/

namespace Sys2Proof.Machine

/-- `pack(F)`: zero in bit 7, subtract in bit 6, half carry in bit 5, carry in bit 4, bits 3 to 0 zero (R27). -/
def Flags.pack (f : Flags) : Byte :=
  BitVec.ofNat 8 ((f.z.toNat <<< 7) ||| (f.n.toNat <<< 6) ||| (f.h.toNat <<< 5) ||| (f.c.toNat <<< 4))

/-- `unpack(byte)`, which ignores bits 3 to 0 (R28). -/
def Flags.unpack (v : Byte) : Flags where
  z := v.getLsbD 7
  n := v.getLsbD 6
  h := v.getLsbD 5
  c := v.getLsbD 4

/-- What an arithmetic primitive of width `w` answers: the result and its Z, H and C outputs (30_encoding.md R76). -/
structure AluOut (w : Nat) where
  res : BitVec w
  z : Bool
  h : Bool
  c : Bool
deriving DecidableEq, Repr

/-- Z: the result is 0. -/
def isZero {w : Nat} (v : BitVec w) : Bool :=
  decide (v.toNat = 0)

/-- The low nibble of a byte as a number. -/
def lowNibble (v : Byte) : Nat :=
  v.toNat &&& 0xF

/-- The low 12 bits of a word as a number. -/
def low12 (v : Word) : Nat :=
  v.toNat &&& 0xFFF

/-- The 8-bit adder (R100): H is the carry out of bit 3 and C out of bit 7, both of the sum with the carry-in. -/
def add8 (p q : Byte) (cin : Bool) : AluOut 8 :=
  let t := p.toNat + q.toNat + cin.toNat
  { res := BitVec.ofNat 8 t
    z := isZero (BitVec.ofNat 8 t)
    h := decide (lowNibble p + lowNibble q + cin.toNat > 0xF)
    c := decide (t > 255) }

/-- The 8-bit subtractor (R101): H is the borrow from bit 4 and C from bit 8. -/
def sub8 (p q : Byte) (cin : Bool) : AluOut 8 :=
  let t : Int := (p.toNat : Int) - (q.toNat : Int) - (cin.toNat : Int)
  { res := BitVec.ofInt 8 t
    z := isZero (BitVec.ofInt 8 t)
    h := decide (lowNibble p < lowNibble q + cin.toNat)
    c := decide (p.toNat < q.toNat + cin.toNat) }

/-- The 16-bit adder (R130): H is the carry out of bit 11 and C out of bit 15. -/
def add16 (p q : Word) : AluOut 16 :=
  let t := p.toNat + q.toNat
  { res := BitVec.ofNat 16 t
    z := isZero (BitVec.ofNat 16 t)
    h := decide (low12 p + low12 q > 0xFFF)
    c := decide (t > 65535) }

/-- One place left, `cin` into bit 0 (R170). -/
def rl8 (v : Byte) (cin : Bool) : Byte :=
  BitVec.ofNat 8 ((v.toNat <<< 1) ||| cin.toNat)

/-- One place right, `cin` into bit 7 (R171). -/
def rr8 (v : Byte) (cin : Bool) : Byte :=
  BitVec.ofNat 8 ((v.toNat >>> 1) ||| (cin.toNat <<< 7))

/-- One place left, circular (R172). -/
def rlc8 (v : Byte) : Byte :=
  rl8 v (v.getLsbD 7)

/-- One place right, circular (R173). -/
def rrc8 (v : Byte) : Byte :=
  rr8 v (v.getLsbD 0)

/-- The flags every accumulator rotate leaves: Z, N and H are 0 whatever the result (44_rotate.md). -/
def rotateFlags (out : Bool) : Flags where
  z := false
  n := false
  h := false
  c := out

/-- Bit `b` of a register (45_bit.md R190). -/
def testBit8 (v : Byte) (b : Fin 8) : Bool :=
  v.getLsbD b.val

/-- `v | (1 << b)` (R192). -/
def setBit8 (v : Byte) (b : Fin 8) : Byte :=
  v ||| (1#8 <<< b.val)

/-- `v & (~(1 << b) & 0xFF)` (R193). -/
def resetBit8 (v : Byte) (b : Fin 8) : Byte :=
  v &&& ~~~(1#8 <<< b.val)

end Sys2Proof.Machine
end

