-- ==== Sys2Proof/Machine/Operands.lean ====
section
/-! DEFINITION. The operand forms of GBE-CORE: the r8 targets `x[r]`, the pair views (10_state.md R30, R31, R33), the byte
F (R32), and the read accessors of the host interface (R38). -/

namespace Sys2Proof.Machine

/-- `x[r]` (R23: the file is flat). -/
def RegFile.reg (f : RegFile) : Reg8 → Byte
  | .a => f.a
  | .b => f.b
  | .c => f.c
  | .d => f.d
  | .e => f.e
  | .h => f.h
  | .l => f.l

/-- `x[r] <- v`. -/
def RegFile.setReg (f : RegFile) (r : Reg8) (v : Byte) : RegFile :=
  match r with
  | .a => { f with a := v }
  | .b => { f with b := v }
  | .c => { f with c := v }
  | .d => { f with d := v }
  | .e => { f with e := v }
  | .h => { f with h := v }
  | .l => { f with l := v }

/-- The flags. -/
def State.flags (s : State) : Flags :=
  s.regs.flags

/-- Write the flags. -/
def State.setFlags (s : State) (f : Flags) : State :=
  { s with regs := { s.regs with flags := f } }

/-- `x[r]`. -/
def State.reg (s : State) (r : Reg8) : Byte :=
  s.regs.reg r

/-- `x[r] <- v`. -/
def State.setReg (s : State) (r : Reg8) (v : Byte) : State :=
  { s with regs := s.regs.setReg r v }

/-- The byte F: the packed flags (R27, R32). -/
def State.f (s : State) : Byte :=
  s.flags.pack

/-- Writing F writes the flags (R32). -/
def State.setF (s : State) (v : Byte) : State :=
  s.setFlags (Flags.unpack v)

/-- The four 16-bit views (R30, R31). -/
inductive Pair where
  | af | bc | de | hl
deriving DecidableEq, Repr

/-- An r16 target as a view. -/
def pairOf : Reg16 → Pair
  | .bc => .bc
  | .de => .de
  | .hl => .hl

/-- High byte first (20_memory.md R53). -/
def joinBytes (hi lo : Byte) : Word :=
  hi ++ lo

/-- `v[15:8]`. -/
def highByte (v : Word) : Byte :=
  v.extractLsb' 8 8

/-- `v[7:0]`. -/
def lowByte (v : Word) : Byte :=
  v.extractLsb' 0 8

/-- `pair(rr)` (R30, R31). -/
def State.pair (s : State) : Pair → Word
  | .af => joinBytes (s.reg .a) s.f
  | .bc => joinBytes (s.reg .b) (s.reg .c)
  | .de => joinBytes (s.reg .d) (s.reg .e)
  | .hl => joinBytes (s.reg .h) (s.reg .l)

/-- `pair(rr) <- v`: exactly the two half writes (R33). -/
def State.setPair (s : State) (p : Pair) (v : Word) : State :=
  match p with
  | .af => (s.setReg .a (highByte v)).setF (lowByte v)
  | .bc => (s.setReg .b (highByte v)).setReg .c (lowByte v)
  | .de => (s.setReg .d (highByte v)).setReg .e (lowByte v)
  | .hl => (s.setReg .h (highByte v)).setReg .l (lowByte v)

/-- The values the host's read accessors return (R38). -/
structure Accessors where
  a : Byte
  b : Byte
  c : Byte
  d : Byte
  e : Byte
  h : Byte
  l : Byte
  zero : Bool
  subtract : Bool
  halfCarry : Bool
  carry : Bool
  f : Byte
  af : Word
  bc : Word
  de : Word
  hl : Word
  faulted : Bool
deriving DecidableEq, Repr

/-- The read accessors (R38); reading changes nothing (20_memory.md R56). -/
def State.accessors (s : State) : Accessors where
  a := s.reg .a
  b := s.reg .b
  c := s.reg .c
  d := s.reg .d
  e := s.reg .e
  h := s.reg .h
  l := s.reg .l
  zero := s.flags.z
  subtract := s.flags.n
  halfCarry := s.flags.h
  carry := s.flags.c
  f := s.f
  af := s.pair .af
  bc := s.pair .bc
  de := s.pair .de
  hl := s.pair .hl
  faulted := s.faulted

end Sys2Proof.Machine
end

