-- ==== Sys2Proof/Machine/Ops.lean ====
section
/-! DEFINITION. The shared operations over the machine: the result writeback (30_encoding.md R78), taking the
programming-error fault (60_exceptions.md R211), launch (70_reset_and_hazards.md R230, R231), and the harness's load,
fetch and advance (R236). There is no return from the fault (R216): only a launch clears the latch. -/

namespace Sys2Proof.Machine

/-- The writeback of an 8-bit result and the flags, as one transition (R78). -/
def State.writeback (s : State) (dest : Reg8) (res : Byte) (f : Flags) : State :=
  (s.setReg dest res).setFlags f

/-- Taking the fault: the latch is set and the outcome reported; every register and flag keeps its value (R211). Nothing is
saved and control goes nowhere (R215). -/
def State.raiseFault (s : State) (r : FaultReport) : State :=
  { s with faulted := true, report := some r }

/-- Launch or reset of the core: the whole data state comes from `init_state` and the latch is cleared (R230, R231). -/
def State.launch (s : State) (d : InitState) : State :=
  { s with regs := RegFile.ofInit d, faulted := false, report := none }

/-- The harness takes a program and starts at offset 0 (R236). -/
def State.load (s : State) (program : List Byte) : State :=
  { s with program := program, pc := 0 }

/-- `program[pc ..]` (R236). -/
def State.fetch (s : State) : List Byte :=
  s.program.drop s.pc

/-- `pc <- pc + n` (R236). -/
def State.advance (s : State) (n : Nat) : State :=
  { s with pc := s.pc + n }

end Sys2Proof.Machine
end

