-- ==== Sys2Proof/Machine/Arith16.lean ====
section
/-! DEFINITION. 16-bit arithmetic (41_arith16.md): ADDHL, the only 16-bit operation (R132). -/

namespace Sys2Proof.Machine

/-- `ADDHL rr` (R131). Z is written too, as the spec's table says (90_conflicts.md C9). -/
def execAddhl (rr : Reg16) (s : State) : Result :=
  let out := add16 (s.pair .hl) (s.pair (pairOf rr))
  .next ((s.setPair .hl out.res).setFlags { z := out.z, n := false, h := out.h, c := out.c })

end Sys2Proof.Machine
end

