-- ==== Sys2Proof/Machine/Arith8.lean ====
section
/-! DEFINITION. 8-bit arithmetic (40_arith8.md). Operands and carry-in are read before anything is written (R77). -/

namespace Sys2Proof.Machine

/-- `ADD r` (R102). -/
def execAdd (r : Reg8) (s : State) : Result :=
  let out := add8 (s.reg .a) (s.reg r) false
  .next (s.writeback .a out.res { z := out.z, n := false, h := out.h, c := out.c })

/-- `ADC r` (R103). -/
def execAdc (r : Reg8) (s : State) : Result :=
  let out := add8 (s.reg .a) (s.reg r) s.flags.c
  .next (s.writeback .a out.res { z := out.z, n := false, h := out.h, c := out.c })

/-- `SUB r` (R104). -/
def execSub (r : Reg8) (s : State) : Result :=
  let out := sub8 (s.reg .a) (s.reg r) false
  .next (s.writeback .a out.res { z := out.z, n := true, h := out.h, c := out.c })

/-- `SBC r` (R105). -/
def execSbc (r : Reg8) (s : State) : Result :=
  let out := sub8 (s.reg .a) (s.reg r) s.flags.c
  .next (s.writeback .a out.res { z := out.z, n := true, h := out.h, c := out.c })

/-- `CP r` (R106): the flags of SUB, no register written. -/
def execCp (r : Reg8) (s : State) : Result :=
  let out := sub8 (s.reg .a) (s.reg r) false
  .next (s.setFlags { z := out.z, n := true, h := out.h, c := out.c })

/-- `INC r` (R107): C unchanged. -/
def execInc (r : Reg8) (s : State) : Result :=
  let out := add8 (s.reg r) 1 false
  .next (s.writeback r out.res { z := out.z, n := false, h := out.h, c := s.flags.c })

/-- `DEC r` (R108): C unchanged. -/
def execDec (r : Reg8) (s : State) : Result :=
  let out := sub8 (s.reg r) 1 false
  .next (s.writeback r out.res { z := out.z, n := true, h := out.h, c := s.flags.c })

end Sys2Proof.Machine
end

