-- ==== Sys2Proof/Machine/Bit.lean ====
section
/-! DEFINITION. Single-bit operations (45_bit.md). -/

namespace Sys2Proof.Machine

/-- `BIT b,r` (R191): Z is the complement of the tested bit; C unchanged, no register written. -/
def execBit (b : Fin 8) (r : Reg8) (s : State) : Result :=
  .next (s.setFlags { s.flags with z := !testBit8 (s.reg r) b, n := false, h := true })

/-- `SET b,r` (R192): no flag written. -/
def execSet (b : Fin 8) (r : Reg8) (s : State) : Result :=
  .next (s.setReg r (setBit8 (s.reg r) b))

/-- `RESET b,r` (R193): no flag written. -/
def execReset (b : Fin 8) (r : Reg8) (s : State) : Result :=
  .next (s.setReg r (resetBit8 (s.reg r) b))

end Sys2Proof.Machine
end

