-- ==== Sys2Proof/Machine/CarryFlag.lean ====
section
/-! DEFINITION. Carry-flag operations (43_carry_flag.md): no register is read or written, Z is unchanged. -/

namespace Sys2Proof.Machine

/-- `CCF` (R160). -/
def execCcf (s : State) : Result :=
  .next (s.setFlags { s.flags with n := false, h := false, c := !s.flags.c })

/-- `SCF` (R161). -/
def execScf (s : State) : Result :=
  .next (s.setFlags { s.flags with n := false, h := false, c := true })

end Sys2Proof.Machine
end

