-- ==== Sys2Proof/Machine/Logic.lean ====
section
/-! DEFINITION. Bitwise logic (42_logic.md). The accumulator is combined with the operand (90_conflicts.md C4). -/

namespace Sys2Proof.Machine

/-- `AND r` (R140): H is 1. -/
def execAnd (r : Reg8) (s : State) : Result :=
  let res := s.reg .a &&& s.reg r
  .next (s.writeback .a res { z := isZero res, n := false, h := true, c := false })

/-- `OR r` (R141). -/
def execOr (r : Reg8) (s : State) : Result :=
  let res := s.reg .a ||| s.reg r
  .next (s.writeback .a res { z := isZero res, n := false, h := false, c := false })

/-- `XOR r` (R142). -/
def execXor (r : Reg8) (s : State) : Result :=
  let res := s.reg .a ^^^ s.reg r
  .next (s.writeback .a res { z := isZero res, n := false, h := false, c := false })

/-- `CPL` (R143): Z and C unchanged. -/
def execCpl (s : State) : Result :=
  .next (s.writeback .a (s.reg .a ^^^ 0xFF#8) { s.flags with n := true, h := true })

end Sys2Proof.Machine
end

