-- ==== Sys2Proof/Machine/Rotate.lean ====
section
/-! DEFINITION. Accumulator rotates (44_rotate.md). Z is 0 whatever the result; the shifted value and the bit rotated in
are combined by OR (90_conflicts.md C7). -/

namespace Sys2Proof.Machine

/-- `RLA` (R170): left through the carry. -/
def execRla (s : State) : Result :=
  .next (s.writeback .a (rl8 (s.reg .a) s.flags.c) (rotateFlags ((s.reg .a).getLsbD 7)))

/-- `RRA` (R171): right through the carry. -/
def execRra (s : State) : Result :=
  .next (s.writeback .a (rr8 (s.reg .a) s.flags.c) (rotateFlags ((s.reg .a).getLsbD 0)))

/-- `RLCA` (R172): left circular; the old carry is not read. -/
def execRlca (s : State) : Result :=
  .next (s.writeback .a (rlc8 (s.reg .a)) (rotateFlags ((s.reg .a).getLsbD 7)))

/-- `RRCA` (R173): right circular; the old carry is not read. -/
def execRrca (s : State) : Result :=
  .next (s.writeback .a (rrc8 (s.reg .a)) (rotateFlags ((s.reg .a).getLsbD 0)))

end Sys2Proof.Machine
end

