-- ==== Sys2Proof/Machine/Dispatch.lean ====
section
/-! DEFINITION. The Executor's dispatch on the instruction variant (30_encoding.md R76), one arm per constructor. -/

namespace Sys2Proof.Machine

def exec (i : Instr) (s : State) : Host.Outcome State Fault Refusal :=
  match i with
  | .add r => Sys2Proof.Machine.execAdd r s
  | .adc r => Sys2Proof.Machine.execAdc r s
  | .sub r => Sys2Proof.Machine.execSub r s
  | .sbc r => Sys2Proof.Machine.execSbc r s
  | .and r => Sys2Proof.Machine.execAnd r s
  | .xor r => Sys2Proof.Machine.execXor r s
  | .or r => Sys2Proof.Machine.execOr r s
  | .cp r => Sys2Proof.Machine.execCp r s
  | .inc r => Sys2Proof.Machine.execInc r s
  | .dec r => Sys2Proof.Machine.execDec r s
  | .addhl rr => Sys2Proof.Machine.execAddhl rr s
  | .rlca => Sys2Proof.Machine.execRlca s
  | .rrca => Sys2Proof.Machine.execRrca s
  | .rla => Sys2Proof.Machine.execRla s
  | .rra => Sys2Proof.Machine.execRra s
  | .cpl => Sys2Proof.Machine.execCpl s
  | .scf => Sys2Proof.Machine.execScf s
  | .ccf => Sys2Proof.Machine.execCcf s
  | .bit b r => Sys2Proof.Machine.execBit b r s
  | .reset b r => Sys2Proof.Machine.execReset b r s
  | .set b r => Sys2Proof.Machine.execSet b r s

end Sys2Proof.Machine
end

