-- ==== Sys2Proof/Machine/Execute.lean ====
section
/-! DEFINITION. `execute`, the one operation the core exposes (10_state.md R37), as the step of 60_exceptions.md R213, and
one turn of the reference harness's loop around it (70_reset_and_hazards.md R236). -/

namespace Sys2Proof.Machine

/-- What an input stands for: an instruction, or the fault it raises with what R210 records (the bytes looked at, or the
value). This is R213's `decode(i) if i is bytes, else validate(i)`. -/
def resolve : Input → Except FaultReport Instr
  | .bytes bs =>
    match decode bs with
    | .instr i _ => .ok i
    | .notInCore n => .error { reason := .notInCore, info := .bytes (bs.take n) }
    | .truncated => .error { reason := .truncated, info := .bytes (bs.take 1) }
  | .value v =>
    match validate v with
    | .ok i => .ok i
    | .error reason => .error { reason := reason, info := .value v }

/-- `execute` (R37, R213). While the latch is set there is no step (R216); otherwise run the instruction, or take the
fault before anything is read or written (R211). -/
def execute (inp : Input) (s : State) : Result :=
  if s.faulted then
    .fault .stuck
  else
    match resolve inp with
    | .ok i => exec i s
    | .error r => .next (s.raiseFault r)

/-- One turn of the harness's loop (R236): a faulted core is stuck, which is never a normal end (R216); at the end of the
program the run is over; otherwise execute the bytes at the offset and, unless that raised the fault, move past the
instruction. -/
def harnessTurn (s : State) : Result :=
  if s.faulted then
    .fault .stuck
  else if s.pc = s.program.length then
    .refused .programEnd
  else
    match execute (.bytes s.fetch) s with
    | .next t => .next (if t.faulted then t else t.advance (decode s.fetch).length)
    | .fault r => .fault r
    | .refused r => .refused r

end Sys2Proof.Machine
end

