-- ==== Sys2Proof/Machine/Step.lean ====
section
/-! DEFINITION. The step: one turn of the reference harness (70_reset_and_hazards.md R236) around `execute`. -/

namespace Sys2Proof.Machine

/-- One step of the machine (log entry 3). -/
def step (s : State) : Host.Outcome State Fault Refusal :=
  harnessTurn s

/-- `s` with the opcode-table word loaded as the program and the offset at its start, which is what the harness's load of
a program does (R236; log entries 3 and 5). -/
def State.withFetchWord (s : State) (nbits w : Nat) : State :=
  s.load (tableBytes nbits w)

end Sys2Proof.Machine
end

