-- ==== Sys2Proof/Assembler.lean ====
section
/-! DEFINITION. The assembler syntax of 30_encoding.md R79: the canonical spelling of each instruction and the accepted
LR35902 alias of those that have one. Syntax has no semantics (92_eei_decisions.md D15). -/

namespace Sys2Proof

/-- A register's name. -/
def Reg8.name : Reg8 → String
  | .a => "A"
  | .b => "B"
  | .c => "C"
  | .d => "D"
  | .e => "E"
  | .h => "H"
  | .l => "L"

/-- A pair's name. -/
def Reg16.name : Reg16 → String
  | .bc => "BC"
  | .de => "DE"
  | .hl => "HL"

/-- A bit index as a decimal digit. -/
def bitDigit (b : Fin 8) : String :=
  match b.val with
  | 0 => "0"
  | 1 => "1"
  | 2 => "2"
  | 3 => "3"
  | 4 => "4"
  | 5 => "5"
  | 6 => "6"
  | _ => "7"

/-- The canonical spelling: mnemonic, then the bit index and a comma where there is one, then the target (R79). -/
def Instr.spelling : Instr → String
  | .add r => "ADD " ++ r.name
  | .adc r => "ADC " ++ r.name
  | .sub r => "SUB " ++ r.name
  | .sbc r => "SBC " ++ r.name
  | .and r => "AND " ++ r.name
  | .xor r => "XOR " ++ r.name
  | .or r => "OR " ++ r.name
  | .cp r => "CP " ++ r.name
  | .inc r => "INC " ++ r.name
  | .dec r => "DEC " ++ r.name
  | .addhl rr => "ADDHL " ++ rr.name
  | .rlca => "RLCA"
  | .rrca => "RRCA"
  | .rla => "RLA"
  | .rra => "RRA"
  | .cpl => "CPL"
  | .scf => "SCF"
  | .ccf => "CCF"
  | .bit b r => "BIT " ++ bitDigit b ++ "," ++ r.name
  | .reset b r => "RESET " ++ bitDigit b ++ "," ++ r.name
  | .set b r => "SET " ++ bitDigit b ++ "," ++ r.name

/-- The conventional LR35902 spelling where it differs (R79). -/
def Instr.aliasSpelling : Instr → Option String
  | .add r => some ("ADD A," ++ r.name)
  | .adc r => some ("ADC A," ++ r.name)
  | .sub r => some ("SUB A," ++ r.name)
  | .sbc r => some ("SBC A," ++ r.name)
  | .and r => some ("AND A," ++ r.name)
  | .xor r => some ("XOR A," ++ r.name)
  | .or r => some ("OR A," ++ r.name)
  | .cp r => some ("CP A," ++ r.name)
  | .addhl rr => some ("ADD HL," ++ rr.name)
  | .reset b r => some ("RES " ++ bitDigit b ++ "," ++ r.name)
  | .inc _ | .dec _ | .rlca | .rrca | .rla | .rra | .cpl | .scf | .ccf | .bit _ _ | .set _ _ => none

end Sys2Proof
end

