-- ==== Sys2Proof/Machine/Harness.lean ====
section
/-! DEFINITION. The reference harness of 70_reset_and_hazards.md R236 as a whole run: how it starts and how it ends. It is
not part of GBE-CORE (R237), and a claim made through it is about straight-line byte lists only. -/

namespace Sys2Proof.Machine

/-- The two ends of a run (R236): normal, or faulted at an offset. -/
inductive RunEnd where
  | normal (s : State)
  | faulted (s : State) (pc : Nat)
deriving DecidableEq, Repr

/-- `S <- launch(init_state)`, `pc <- 0` (R236). -/
def harnessStart (program : List Byte) (d : InitState) : State :=
  (State.reset.launch d).load program

/-- The end a state is at, if it is at one: faulted, or at the end of the program (R236). -/
def runEnd (s : State) : Option RunEnd :=
  if s.faulted then
    some (.faulted s s.pc)
  else if s.pc = s.program.length then
    some (.normal s)
  else
    none

/-- The loop, with a bound on its turns; `none` where the bound is too small or a step has no next state. -/
def harnessLoop : Nat → State → Option RunEnd
  | 0, s => runEnd s
  | k + 1, s =>
    match runEnd s with
    | some e => some e
    | none =>
      match step s with
      | .next t => harnessLoop k t
      | .fault _ => none
      | .refused _ => none

/-- `run(program, init_state)`: at most as many turns as the program has bytes (R238). -/
def harnessRun (program : List Byte) (d : InitState) : Option RunEnd :=
  harnessLoop program.length (harnessStart program d)

/-- The instructions of a list in order, each on the state the one before it left (20_memory.md R57). -/
def execSeq : List Instr → State → Result
  | [], s => .next s
  | i :: is, s =>
    match exec i s with
    | .next t => execSeq is t
    | .fault r => .fault r
    | .refused r => .refused r

end Sys2Proof.Machine
end

