-- ==== Sys2Proof/Safety.lean ====
section
/-! DEFINITION. The terms the statements use: the frame predicates, what a safe state is, and the invariant every step
keeps. -/

namespace Sys2Proof.Machine

/-- Every register outside `changed` holds what it held. -/
def RegsKeptBut (changed : List Reg8) (s t : State) : Prop :=
  ∀ q : Reg8, q ∉ changed → t.reg q = s.reg q

/-- All state other than the register file is as it was: the latch, the report, the program bytes (GBE-CORE has no other
memory, 20_memory.md R50) and the harness offset. -/
def RestKept (s t : State) : Prop :=
  t.faulted = s.faulted ∧ t.report = s.report ∧ t.program = s.program ∧ t.pc = s.pc

/-- The registers an instruction may write (10_state.md R24). -/
def writtenRegs : Instr → List Reg8
  | .add _ | .adc _ | .sub _ | .sbc _ | .and _ | .xor _ | .or _ => [.a]
  | .cpl | .rla | .rra | .rlca | .rrca => [.a]
  | .inc r | .dec r => [r]
  | .set _ r | .reset _ r => [r]
  | .addhl _ => [.h, .l]
  | .cp _ | .bit _ _ | .ccf | .scf => []

/-- The instructions that read the carry flag (10_state.md R26, the column C's `r`). -/
def readsCarry : Instr → Bool
  | .adc _ | .sbc _ | .rla | .rra | .ccf => true
  | .add _ | .sub _ | .and _ | .xor _ | .or _ | .cp _ | .inc _ | .dec _ | .addhl _ => false
  | .rlca | .rrca | .cpl | .scf | .bit _ _ | .reset _ _ | .set _ _ => false

/-- The registers an instruction reads (10_state.md R24): A for the accumulator operations, and the registers its operand
names; HL is read by every ADDHL. -/
def readRegs : Instr → List Reg8
  | .add r | .adc r | .sub r | .sbc r | .and r | .xor r | .or r | .cp r => [.a, r]
  | .inc r | .dec r => [r]
  | .bit _ r | .reset _ r | .set _ r => [r]
  | .addhl .bc => [.h, .l, .b, .c]
  | .addhl .de => [.h, .l, .d, .e]
  | .addhl .hl => [.h, .l]
  | .cpl | .rla | .rra | .rlca | .rrca => [.a]
  | .ccf | .scf => []

/-- The flags an instruction leaves unchanged, the `-` of the flag table (10_state.md R26): `true` where kept. -/
def keptFlags : Instr → Flags
  | .add _ | .adc _ | .sub _ | .sbc _ | .cp _ => { z := false, n := false, h := false, c := false }
  | .inc _ | .dec _ => { z := false, n := false, h := false, c := true }
  | .addhl _ => { z := false, n := false, h := false, c := false }
  | .and _ | .or _ | .xor _ => { z := false, n := false, h := false, c := false }
  | .cpl => { z := true, n := false, h := false, c := true }
  | .ccf | .scf => { z := true, n := false, h := false, c := false }
  | .rla | .rra | .rlca | .rrca => { z := false, n := false, h := false, c := false }
  | .bit _ _ => { z := false, n := false, h := false, c := true }
  | .set _ _ | .reset _ _ => { z := true, n := true, h := true, c := true }

/-- A safe run: it ends, and normally (70_reset_and_hazards.md R236: a faulted end is never a normal one). -/
def SafeRun (program : List Byte) (d : InitState) : Prop :=
  ∃ t : State, harnessRun program d = some (.normal t)

/-- The invariant: the harness offset lies in the program; a clear latch goes with no report; a set latch goes with an
offset before the end and the report of exactly the bytes there, which are therefore no legal encoding (60_exceptions.md
R211: the fault is precise). -/
structure State.Inv (s : State) : Prop where
  pc_le : s.pc ≤ s.program.length
  clear : s.faulted = false → s.report = none
  held : s.faulted = true → s.pc < s.program.length ∧ ∃ r, s.report = some r ∧ resolve (.bytes s.fetch) = .error r

end Sys2Proof.Machine
end

