-- ==== Sys2Proof/Certificates/Slice0/Obligations.lean ====
section
/-! DEFINITION. The statements about the model, for the provers. Each docstring says what it states; OBLIGATIONS.json
names the rules of spec/ it rests on. -/

open Sys2Proof Sys2Proof.Machine

/-- For every register r and state, ADD r answers a next state whose A is (A + r) mod 256, Z says that this is 0, N is
0, H says that the low nibbles sum above 15 and C that A + r is above 255; the old carry is not read. The statement
gives every flag, keeps every register but the destination, the latch, the report, the program bytes and the offset,
and says which bytes decode to the instruction. (R102) -/
def Obligations.AddSumsIntoAccumulator : Prop :=
  ∀ (r : Reg8) (s : State), ∃ t : State, exec (.add r) s = .next t ∧
    (t.reg .a).toNat = ((s.reg .a).toNat + (s.reg r).toNat) % 256 ∧
    (t.flags.z = true ↔ ((s.reg .a).toNat + (s.reg r).toNat) % 256 = 0) ∧ t.flags.n = false ∧
    (t.flags.h = true ↔ (s.reg .a).toNat % 16 + (s.reg r).toNat % 16 > 15) ∧
    (t.flags.c = true ↔ (s.reg .a).toNat + (s.reg r).toNat > 255) ∧
    RegsKeptBut [.a] s t ∧ RestKept s t ∧
    ∀ more : List Byte, decode ((0b10000#5 ++ r.code : Byte) :: more) = .instr (.add r) 1

/-- For every register r and state, ADC r answers a next state whose A is (A + r + C) mod 256 with C the carry before
it, Z says that this is 0, N is 0, H says that the low nibbles and the carry-in sum above 15 and C that A + r +
carry-in is above 255. As the state is arbitrary this is the whole of the 8-bit adder, for both values of the carry-
in. The statement gives every flag, keeps every register but the destination, the latch, the report, the program
bytes and the offset, and says which bytes decode to the instruction. (R103, R100) -/
def Obligations.AdcAddsWithCarryIn : Prop :=
  ∀ (r : Reg8) (s : State), ∃ t : State, exec (.adc r) s = .next t ∧
    (t.reg .a).toNat = ((s.reg .a).toNat + (s.reg r).toNat + s.flags.c.toNat) % 256 ∧
    (t.flags.z = true ↔ ((s.reg .a).toNat + (s.reg r).toNat + s.flags.c.toNat) % 256 = 0) ∧ t.flags.n = false ∧
    (t.flags.h = true ↔ (s.reg .a).toNat % 16 + (s.reg r).toNat % 16 + s.flags.c.toNat > 15) ∧
    (t.flags.c = true ↔ (s.reg .a).toNat + (s.reg r).toNat + s.flags.c.toNat > 255) ∧
    RegsKeptBut [.a] s t ∧ RestKept s t ∧
    ∀ more : List Byte, decode ((0b10001#5 ++ r.code : Byte) :: more) = .instr (.adc r) 1

/-- For every register r and state, SUB r answers a next state whose A is (A - r) mod 256, Z says that this is 0, N is
1, H says that the low nibble of A is below that of r and C that A is below r; the old carry is not read. The
statement gives every flag, keeps every register but the destination, the latch, the report, the program bytes and
the offset, and says which bytes decode to the instruction. (R104) -/
def Obligations.SubSubtractsFromAccumulator : Prop :=
  ∀ (r : Reg8) (s : State), ∃ t : State, exec (.sub r) s = .next t ∧
    ((t.reg .a).toNat : Int) = (((s.reg .a).toNat : Int) - (s.reg r).toNat) % 256 ∧
    (t.flags.z = true ↔ (((s.reg .a).toNat : Int) - (s.reg r).toNat) % 256 = 0) ∧ t.flags.n = true ∧
    (t.flags.h = true ↔ (s.reg .a).toNat % 16 < (s.reg r).toNat % 16) ∧
    (t.flags.c = true ↔ (s.reg .a).toNat < (s.reg r).toNat) ∧
    RegsKeptBut [.a] s t ∧ RestKept s t ∧
    ∀ more : List Byte, decode ((0b10010#5 ++ r.code : Byte) :: more) = .instr (.sub r) 1

/-- For every register r and state, SBC r answers a next state whose A is (A - r - C) mod 256 with C the carry before
it, Z says that this is 0, N is 1, H says that the low nibble of A is below that of r plus the carry-in and C that A
is below r plus the carry-in, on exact integers. As the state is arbitrary this is the whole of the 8-bit
subtractor, for both values of the carry-in. The statement gives every flag, keeps every register but the
destination, the latch, the report, the program bytes and the offset, and says which bytes decode to the
instruction. (R105, R101) -/
def Obligations.SbcSubtractsWithBorrowIn : Prop :=
  ∀ (r : Reg8) (s : State), ∃ t : State, exec (.sbc r) s = .next t ∧
    ((t.reg .a).toNat : Int) = (((s.reg .a).toNat : Int) - (s.reg r).toNat - s.flags.c.toNat) % 256 ∧
    (t.flags.z = true ↔ (((s.reg .a).toNat : Int) - (s.reg r).toNat - s.flags.c.toNat) % 256 = 0) ∧ t.flags.n = true ∧
    (t.flags.h = true ↔ (s.reg .a).toNat % 16 < (s.reg r).toNat % 16 + s.flags.c.toNat) ∧
    (t.flags.c = true ↔ (s.reg .a).toNat < (s.reg r).toNat + s.flags.c.toNat) ∧
    RegsKeptBut [.a] s t ∧ RestKept s t ∧
    ∀ more : List Byte, decode ((0b10011#5 ++ r.code : Byte) :: more) = .instr (.sbc r) 1

/-- For every register r and state, CP r answers a next state with every register as it was, Z set exactly when A = r, N
1, H set exactly when the low nibble of A is below that of r and C set exactly when A is below r; these are the
flags SUB r leaves. The statement gives every flag, keeps every register but the destination, the latch, the report,
the program bytes and the offset, and says which bytes decode to the instruction. (R106) -/
def Obligations.CpSetsFlagsOnly : Prop :=
  ∀ (r : Reg8) (s : State), ∃ t : State, exec (.cp r) s = .next t ∧
    (t.flags.z = true ↔ s.reg .a = s.reg r) ∧ t.flags.n = true ∧
    (t.flags.h = true ↔ (s.reg .a).toNat % 16 < (s.reg r).toNat % 16) ∧
    (t.flags.c = true ↔ (s.reg .a).toNat < (s.reg r).toNat) ∧
    (∀ u : State, exec (.sub r) s = .next u → u.flags = t.flags) ∧
    RegsKeptBut [] s t ∧ RestKept s t ∧
    ∀ more : List Byte, decode ((0b10111#5 ++ r.code : Byte) :: more) = .instr (.cp r) 1

/-- For every register r and state, INC r answers a next state whose r is (r + 1) mod 256, Z says that this is 0, N is
0, H is set exactly when the low nibble of the old value was 15 and C is unchanged; Z and H are the outputs of the
8-bit adder on r and 1. The statement gives every flag, keeps every register but the destination, the latch, the
report, the program bytes and the offset, and says which bytes decode to the instruction. (R107) -/
def Obligations.IncWrapsAndKeepsCarry : Prop :=
  ∀ (r : Reg8) (s : State), ∃ t : State, exec (.inc r) s = .next t ∧
    (t.reg r).toNat = ((s.reg r).toNat + 1) % 256 ∧
    (t.flags.z = true ↔ (t.reg r).toNat = 0) ∧ t.flags.n = false ∧
    (t.flags.h = true ↔ (s.reg r).toNat % 16 = 15) ∧ t.flags.c = s.flags.c ∧
    t.flags.z = (add8 (s.reg r) 1 false).z ∧ t.flags.h = (add8 (s.reg r) 1 false).h ∧
    RegsKeptBut [r] s t ∧ RestKept s t ∧
    ∀ more : List Byte, decode ((0b00#2 ++ r.code ++ 0b100#3 : Byte) :: more) = .instr (.inc r) 1

/-- For every register r and state, DEC r answers a next state whose r is (r - 1) mod 256, Z says that this is 0, N is
1, H is set exactly when the low nibble of the old value was 0 and C is unchanged; Z and H are the outputs of the
8-bit subtractor on r and 1. The statement gives every flag, keeps every register but the destination, the latch,
the report, the program bytes and the offset, and says which bytes decode to the instruction. (R108) -/
def Obligations.DecWrapsAndKeepsCarry : Prop :=
  ∀ (r : Reg8) (s : State), ∃ t : State, exec (.dec r) s = .next t ∧
    ((t.reg r).toNat : Int) = (((s.reg r).toNat : Int) - 1) % 256 ∧
    (t.flags.z = true ↔ (t.reg r).toNat = 0) ∧ t.flags.n = true ∧
    (t.flags.h = true ↔ (s.reg r).toNat % 16 = 0) ∧ t.flags.c = s.flags.c ∧
    t.flags.z = (sub8 (s.reg r) 1 false).z ∧ t.flags.h = (sub8 (s.reg r) 1 false).h ∧
    RegsKeptBut [r] s t ∧ RestKept s t ∧
    ∀ more : List Byte, decode ((0b00#2 ++ r.code ++ 0b101#3 : Byte) :: more) = .instr (.dec r) 1

/-- For every pair BC, DE or HL and every state, ADDHL answers a next state whose HL is (HL + rr) mod 65536, H and L
being its two bytes, Z says that this is 0, N is 0, H says that the low 12 bits sum above 4095 and C that HL + rr is
above 65535; every other register, the latch, the report, the program bytes and the offset are kept; the bytes that
decode to it are given, and 0x39 is none. As the state is arbitrary this is the whole of the 16-bit adder. (R131,
R130) -/
def Obligations.AddHlSumsPairs : Prop :=
  (∀ (rr : Reg16) (s : State), ∃ t : State, exec (.addhl rr) s = .next t ∧
    (t.pair .hl).toNat = ((s.pair .hl).toNat + (s.pair (pairOf rr)).toNat) % 65536 ∧
    (t.reg .h).toNat = ((s.pair .hl).toNat + (s.pair (pairOf rr)).toNat) % 65536 / 256 ∧
    (t.reg .l).toNat = ((s.pair .hl).toNat + (s.pair (pairOf rr)).toNat) % 256 ∧
    (t.flags.z = true ↔ ((s.pair .hl).toNat + (s.pair (pairOf rr)).toNat) % 65536 = 0) ∧ t.flags.n = false ∧
    (t.flags.h = true ↔ (s.pair .hl).toNat % 4096 + (s.pair (pairOf rr)).toNat % 4096 > 4095) ∧
    (t.flags.c = true ↔ (s.pair .hl).toNat + (s.pair (pairOf rr)).toNat > 65535) ∧
    RegsKeptBut [.h, .l] s t ∧ RestKept s t ∧
    ∀ more : List Byte, decode ((0b00#2 ++ rr.code ++ 0b1001#4 : Byte) :: more) = .instr (.addhl rr) 1) ∧
  ∀ more : List Byte, decode (0x39#8 :: more) = .notInCore 1

/-- For every register r and state, AND r answers a next state in which each bit of A is the AND of the old bits of A
and r, Z says that the result is 0, N is 0, H is 1 and C is 0. The statement gives every flag, keeps every register
but the destination, the latch, the report, the program bytes and the offset, and says which bytes decode to the
instruction. (R140) -/
def Obligations.AndCombinesWithOperand : Prop :=
  ∀ (r : Reg8) (s : State), ∃ t : State, exec (.and r) s = .next t ∧
    (∀ j : Fin 8, (t.reg .a).getLsbD j = ((s.reg .a).getLsbD j && (s.reg r).getLsbD j)) ∧
    (t.flags.z = true ↔ (t.reg .a).toNat = 0) ∧ t.flags.n = false ∧ t.flags.h = true ∧ t.flags.c = false ∧
    RegsKeptBut [.a] s t ∧ RestKept s t ∧
    ∀ more : List Byte, decode ((0b10100#5 ++ r.code : Byte) :: more) = .instr (.and r) 1

/-- For every register r and state, OR r answers a next state in which each bit of A is the OR of the old bits of A and
r, Z says that the result is 0 and N, H and C are 0. The statement gives every flag, keeps every register but the
destination, the latch, the report, the program bytes and the offset, and says which bytes decode to the
instruction. (R141) -/
def Obligations.OrCombinesWithOperand : Prop :=
  ∀ (r : Reg8) (s : State), ∃ t : State, exec (.or r) s = .next t ∧
    (∀ j : Fin 8, (t.reg .a).getLsbD j = ((s.reg .a).getLsbD j || (s.reg r).getLsbD j)) ∧
    (t.flags.z = true ↔ (t.reg .a).toNat = 0) ∧ t.flags.n = false ∧ t.flags.h = false ∧ t.flags.c = false ∧
    RegsKeptBut [.a] s t ∧ RestKept s t ∧
    ∀ more : List Byte, decode ((0b10110#5 ++ r.code : Byte) :: more) = .instr (.or r) 1

/-- For every register r and state, XOR r answers a next state in which each bit of A is the exclusive OR of the old
bits of A and r, Z is set exactly when A equals r and N, H and C are 0. The statement gives every flag, keeps every
register but the destination, the latch, the report, the program bytes and the offset, and says which bytes decode
to the instruction. (R142) -/
def Obligations.XorCombinesWithOperand : Prop :=
  ∀ (r : Reg8) (s : State), ∃ t : State, exec (.xor r) s = .next t ∧
    (∀ j : Fin 8, (t.reg .a).getLsbD j = ((s.reg .a).getLsbD j ^^ (s.reg r).getLsbD j)) ∧
    (t.flags.z = true ↔ (t.reg .a).toNat = 0) ∧ t.flags.n = false ∧ t.flags.h = false ∧ t.flags.c = false ∧
    (t.flags.z = true ↔ s.reg .a = s.reg r) ∧
    RegsKeptBut [.a] s t ∧ RestKept s t ∧
    ∀ more : List Byte, decode ((0b10101#5 ++ r.code : Byte) :: more) = .instr (.xor r) 1

/-- For every state, CPL answers a next state whose A is 255 minus the old A, N and H are 1 and Z and C are unchanged.
The statement gives every flag, keeps every register but those named, the latch, the report, the program bytes and
the offset, and says which byte decodes to it. (R143) -/
def Obligations.CplComplementsAccumulator : Prop :=
  ∀ s : State, ∃ t : State, exec .cpl s = .next t ∧
    (t.reg .a).toNat = 255 - (s.reg .a).toNat ∧
    t.flags.z = s.flags.z ∧ t.flags.n = true ∧ t.flags.h = true ∧ t.flags.c = s.flags.c ∧
    RegsKeptBut [.a] s t ∧ RestKept s t ∧
    ∀ more : List Byte, decode (0x2F#8 :: more) = .instr .cpl 1

/-- For every state, CCF answers a next state whose carry is the complement of the old one, N and H are 0, Z is
unchanged and no register is written. The statement gives every flag, keeps every register but those named, the
latch, the report, the program bytes and the offset, and says which byte decodes to it. (R160) -/
def Obligations.CcfTogglesCarry : Prop :=
  ∀ s : State, ∃ t : State, exec .ccf s = .next t ∧
    t.flags.c = !s.flags.c ∧ t.flags.n = false ∧ t.flags.h = false ∧ t.flags.z = s.flags.z ∧
    RegsKeptBut [] s t ∧ RestKept s t ∧
    ∀ more : List Byte, decode (0x3F#8 :: more) = .instr .ccf 1

/-- For every state, SCF answers a next state whose carry is 1, N and H are 0, Z is unchanged and no register is
written; a CCF after it leaves the carry 0. The statement gives every flag, keeps every register but those named,
the latch, the report, the program bytes and the offset, and says which byte decodes to it. (R161) -/
def Obligations.ScfSetsCarry : Prop :=
  ∀ s : State, ∃ t : State, exec .scf s = .next t ∧
    t.flags.c = true ∧ t.flags.n = false ∧ t.flags.h = false ∧ t.flags.z = s.flags.z ∧
    (∃ u : State, exec .ccf t = .next u ∧ u.flags.c = false) ∧
    RegsKeptBut [] s t ∧ RestKept s t ∧
    ∀ more : List Byte, decode (0x37#8 :: more) = .instr .scf 1

/-- For every state, RLA answers a next state in which bit 0 of A is the old carry, every other bit is the old bit below
it, and the carry is the old bit 7; Z, N and H are 0 whatever the result. The statement gives every flag, keeps
every register but those named, the latch, the report, the program bytes and the offset, and says which byte decodes
to it. (R170) -/
def Obligations.RlaRotatesThroughCarry : Prop :=
  ∀ s : State, ∃ t : State, exec .rla s = .next t ∧
    (∀ j : Fin 8, (t.reg .a).getLsbD j = if j.val = 0 then s.flags.c else (s.reg .a).getLsbD (j.val - 1)) ∧
    t.flags.c = (s.reg .a).getLsbD 7 ∧ t.flags.z = false ∧ t.flags.n = false ∧ t.flags.h = false ∧
    RegsKeptBut [.a] s t ∧ RestKept s t ∧
    ∀ more : List Byte, decode (0x17#8 :: more) = .instr .rla 1

/-- For every state, RRA answers a next state in which bit 7 of A is the old carry, every other bit is the old bit above
it, and the carry is the old bit 0; Z, N and H are 0 whatever the result. The statement gives every flag, keeps
every register but those named, the latch, the report, the program bytes and the offset, and says which byte decodes
to it. (R171) -/
def Obligations.RraRotatesThroughCarry : Prop :=
  ∀ s : State, ∃ t : State, exec .rra s = .next t ∧
    (∀ j : Fin 8, (t.reg .a).getLsbD j = if j.val = 7 then s.flags.c else (s.reg .a).getLsbD (j.val + 1)) ∧
    t.flags.c = (s.reg .a).getLsbD 0 ∧ t.flags.z = false ∧ t.flags.n = false ∧ t.flags.h = false ∧
    RegsKeptBut [.a] s t ∧ RestKept s t ∧
    ∀ more : List Byte, decode (0x1F#8 :: more) = .instr .rra 1

/-- For every state, RLCA answers a next state in which bit 0 of A is the old bit 7, every other bit is the old bit
below it, and the carry is the old bit 7; the old carry does not enter; Z, N and H are 0 whatever the result. The
statement gives every flag, keeps every register but those named, the latch, the report, the program bytes and the
offset, and says which byte decodes to it. (R172) -/
def Obligations.RlcaRotatesCircular : Prop :=
  ∀ s : State, ∃ t : State, exec .rlca s = .next t ∧
    (∀ j : Fin 8, (t.reg .a).getLsbD j = if j.val = 0 then (s.reg .a).getLsbD 7 else (s.reg .a).getLsbD (j.val - 1)) ∧
    t.flags.c = (s.reg .a).getLsbD 7 ∧ t.flags.z = false ∧ t.flags.n = false ∧ t.flags.h = false ∧
    RegsKeptBut [.a] s t ∧ RestKept s t ∧
    ∀ more : List Byte, decode (0x07#8 :: more) = .instr .rlca 1

/-- For every state, RRCA answers a next state in which bit 7 of A is the old bit 0, every other bit is the old bit
above it, and the carry is the old bit 0; the old carry does not enter; Z, N and H are 0 whatever the result. The
statement gives every flag, keeps every register but those named, the latch, the report, the program bytes and the
offset, and says which byte decodes to it. (R173) -/
def Obligations.RrcaRotatesCircular : Prop :=
  ∀ s : State, ∃ t : State, exec .rrca s = .next t ∧
    (∀ j : Fin 8, (t.reg .a).getLsbD j = if j.val = 7 then (s.reg .a).getLsbD 0 else (s.reg .a).getLsbD (j.val + 1)) ∧
    t.flags.c = (s.reg .a).getLsbD 0 ∧ t.flags.z = false ∧ t.flags.n = false ∧ t.flags.h = false ∧
    RegsKeptBut [.a] s t ∧ RestKept s t ∧
    ∀ more : List Byte, decode (0x0F#8 :: more) = .instr .rrca 1

/-- For every bit index, register and state, BIT b,r answers a next state in which Z is set exactly when bit b of r is
0, N is 0, H is 1, C is unchanged and no register is written. Every register but those named, the latch, the report,
the program bytes and the offset are kept, and the bytes that decode to it are given. (R191) -/
def Obligations.BitTestsOneBit : Prop :=
  ∀ (b : Fin 8) (r : Reg8) (s : State), ∃ t : State, exec (.bit b r) s = .next t ∧
    (t.flags.z = true ↔ (s.reg r).toNat / 2 ^ b.val % 2 = 0) ∧
    t.flags.n = false ∧ t.flags.h = true ∧ t.flags.c = s.flags.c ∧
    RegsKeptBut [] s t ∧ RestKept s t ∧
    ∀ more : List Byte,
      decode (0xCB#8 :: (0b01#2 ++ (BitVec.ofFin b : BitVec 3) ++ r.code : Byte) :: more) = .instr (.bit b r) 2

/-- For every bit index, register and state, SET b,r answers a next state in which bit b of r is 1, every other bit of r
is as it was and no flag is written. Every register but those named, the latch, the report, the program bytes and
the offset are kept, and the bytes that decode to it are given. (R192) -/
def Obligations.SetSetsOneBit : Prop :=
  ∀ (b : Fin 8) (r : Reg8) (s : State), ∃ t : State, exec (.set b r) s = .next t ∧
    (∀ j : Fin 8, (t.reg r).getLsbD j = if j = b then true else (s.reg r).getLsbD j) ∧ t.flags = s.flags ∧
    RegsKeptBut [r] s t ∧ RestKept s t ∧
    ∀ more : List Byte,
      decode (0xCB#8 :: (0b11#2 ++ (BitVec.ofFin b : BitVec 3) ++ r.code : Byte) :: more) = .instr (.set b r) 2

/-- For every bit index, register and state, RESET b,r answers a next state in which bit b of r is 0, every other bit of
r is as it was and no flag is written. Every register but those named, the latch, the report, the program bytes and
the offset are kept, and the bytes that decode to it are given. (R193) -/
def Obligations.ResetClearsOneBit : Prop :=
  ∀ (b : Fin 8) (r : Reg8) (s : State), ∃ t : State, exec (.reset b r) s = .next t ∧
    (∀ j : Fin 8, (t.reg r).getLsbD j = if j = b then false else (s.reg r).getLsbD j) ∧ t.flags = s.flags ∧
    RegsKeptBut [r] s t ∧ RestKept s t ∧
    ∀ more : List Byte,
      decode (0xCB#8 :: (0b10#2 ++ (BitVec.ofFin b : BitVec 3) ++ r.code : Byte) :: more) = .instr (.reset b r) 2

/-- For every instruction with every operand the encoding admits, and any bytes after it, the decoder reads from its
encoded bytes that instruction and the length of its encoding. It says that no bit of an encoding is dropped; the
words written out in the tests say that the bits are read right. (30_encoding.md sections 2 to 4) -/
def Obligations.DecodeOfEncode : Prop :=
  ∀ (i : Instr) (more : List Byte), decode (encode i ++ more) = .instr i (encode i).length

/-- Exactly 80 first bytes decode to a one-byte instruction and exactly 168 second bytes after 0xCB to a two-byte one,
248 in all; bytes that decode to an instruction of length n begin with exactly that instruction's encoding of n
bytes; every instruction decodes from its encoding, and from no other list of bytes that is wholly used. (R71) -/
def Obligations.LegalEncodingsAreExactly248 : Prop :=
  ((List.range 256).filter fun k => (decodeTableWord 8 k).isSome).length = 80 ∧
  ((List.range 256).filter fun k => (decodeTableWord 16 (0xCB00 + k)).isSome).length = 168 ∧
  (∀ (bs : List Byte) (i : Instr) (n : Nat), decode bs = .instr i n → n = (encode i).length ∧ bs.take n = encode i) ∧
  ∀ (i : Instr) (bs : List Byte), decode bs = .instr i bs.length ↔ bs = encode i

/-- An instruction decoded from bytes whose first byte is 0xCB has length 2 and any other has length 1; the encoding of
BIT, SET and RESET is two bytes beginning with 0xCB, and that of every other instruction is one byte. (R65) -/
def Obligations.LengthIsToldByFirstByte : Prop :=
  (∀ (b0 : Byte) (more : List Byte) (i : Instr) (n : Nat), decode (b0 :: more) = .instr i n →
    n = if b0 = 0xCB#8 then 2 else 1) ∧
  (∀ (b : Fin 8) (r : Reg8),
    (∃ v, encode (.bit b r) = [0xCB#8, v]) ∧ (∃ v, encode (.set b r) = [0xCB#8, v]) ∧
      ∃ v, encode (.reset b r) = [0xCB#8, v]) ∧
  ∀ i : Instr, (∀ (b : Fin 8) (r : Reg8), i ≠ .bit b r ∧ i ≠ .set b r ∧ i ≠ .reset b r) → (encode i).length = 1

/-- For every state whose latch is clear and every list of bytes that begins with the encoding of no instruction,
execute answers the state with the latch set and the report recording the reason (Truncated for a lone 0xCB,
NotInCore otherwise) and the bytes looked at (two after 0xCB, else one, as far as there are so many); registers,
flags, program bytes and offset are kept. 175 first bytes and 88 second bytes are illegal. That taking the fault is
a next state with the outcome held in the field report is the model's own choice (log entry 2), and that the empty
list of bytes raises NotInCore and records no byte is the model's deduction (log entry 4). (30_encoding.md section 4
(illegal encodings), 60_exceptions.md section 1 (reasons, records, what the fault keeps), 92_eei_decisions.md D4 and
D5) -/
def Obligations.IllegalBytesTakeTheFault : Prop :=
  (∀ (s : State) (bs : List Byte), s.faulted = false → (∀ i : Instr, ¬ encode i <+: bs) →
    execute (.bytes bs) s = .next { s with
      faulted := true
      report := some {
        reason := if bs = [0xCB#8] then .truncated else .notInCore
        info := .bytes (bs.take (if bs.head? = some 0xCB#8 then 2 else 1)) } }) ∧
  ((List.range 256).filter fun k => decide (decode [BitVec.ofNat 8 k, 0] = .notInCore 1)).length = 175 ∧
  ((List.range 256).filter fun k => decide (decode [0xCB, BitVec.ofNat 8 k] = .notInCore 2)).length = 88

/-- For every state whose latch is clear and every presented value: if its operand is outside the legal set, execute
takes the fault OperandOutOfSet; if only its bit index is outside [0, 7], BitIndexOutOfRange; each records the value
and keeps everything but latch and report. Otherwise it is the value some instruction presents, and execute runs
that instruction. That taking the fault is a next state with the outcome held in the field report is the model's own
choice (log entry 2), and so is the form of a presented value, with its twelve operands and any bit index (log entry
6). (60_exceptions.md sections 1 and 2, 30_encoding.md section 1) -/
def Obligations.PresentedValuesAreChecked : Prop :=
  ∀ (v : PresentedInstr) (s : State), s.faulted = false →
    (v.operandLegal = false → execute (.value v) s =
      .next { s with faulted := true, report := some { reason := .operandOutOfSet, info := .value v } }) ∧
    (v.operandLegal = true → v.bitIndexLegal = false → execute (.value v) s =
      .next { s with faulted := true, report := some { reason := .bitIndexOutOfRange, info := .value v } }) ∧
    (v.wellFormed = true → ∃ i : Instr, i.present = v ∧ execute (.value v) s = exec i s)

/-- For every instruction, every state and any bytes after the encoding, execute of the bytes and execute of the
abstract value answer the same. (10_state.md section 7, 30_encoding.md section 4) -/
def Obligations.BytesAndValuesAgree : Prop :=
  ∀ (i : Instr) (more : List Byte) (s : State),
    execute (.bytes (encode i ++ more)) s = execute (.value i.present) s

/-- Bytes written out from the spec's formats and map, at least one of each family, decode to the instruction they stand
for, and some illegal ones are refused by name. (30_encoding.md section 3, 95_test_vectors.md section 3) -/
def Obligations.SampleBytesDecodeAsTabled : Prop :=
  decode [0x80] = .instr (.add .b) 1 ∧ decode [0x9F] = .instr (.sbc .a) 1 ∧ decode [0xB8] = .instr (.cp .b) 1 ∧
  decode [0x2C] = .instr (.inc .l) 1 ∧ decode [0x15] = .instr (.dec .d) 1 ∧ decode [0x19] = .instr (.addhl .de) 1 ∧
  decode [0xA0] = .instr (.and .b) 1 ∧ decode [0xAB] = .instr (.xor .e) 1 ∧ decode [0xB1] = .instr (.or .c) 1 ∧
  decode [0x2F] = .instr .cpl 1 ∧ decode [0x37] = .instr .scf 1 ∧ decode [0x3F] = .instr .ccf 1 ∧
  decode [0x07] = .instr .rlca 1 ∧ decode [0x0F] = .instr .rrca 1 ∧ decode [0x17] = .instr .rla 1 ∧
  decode [0x1F] = .instr .rra 1 ∧ decode [0xCB, 0x7F] = .instr (.bit 7 .a) 2 ∧
  decode [0xCB, 0x87] = .instr (.reset 0 .a) 2 ∧ decode [0xCB, 0xFD] = .instr (.set 7 .l) 2 ∧
  decode [0x86] = .notInCore 1 ∧ decode [0x27] = .notInCore 1 ∧ decode [0x39] = .notInCore 1 ∧
  decode [0xCB, 0x37] = .notInCore 2 ∧ decode [0xCB] = .truncated

/-- In every state whose latch is clear and whose bytes at the offset decode to an instruction of length n, that
instruction answers a next state and the step answers that state with the offset n further. That a step is one turn
of the reference harness is the model's choice (log entry 3). (60_exceptions.md section 2, 70_reset_and_hazards.md
section 4) -/
def Obligations.StepRunsDecodedInstruction : Prop :=
  ∀ (s : State) (i : Instr) (n : Nat), s.faulted = false → decode (s.program.drop s.pc) = .instr i n →
    ∃ t : State, exec i s = .next t ∧ step s = .next { t with pc := s.pc + n }

/-- In every state whose latch is clear, whose offset is not the end of the program and whose bytes at the offset begin
with no instruction's encoding, the step answers the state with the latch set and the report of those bytes;
registers, flags, program and offset are kept, and the step after it answers the fault stuck. The report field and
the two-step form are the model's own (log entry 2), and so is the fault of an offset beyond the end of the program,
which hands over no byte (log entries 3 and 4). (60_exceptions.md sections 1 to 3, 70_reset_and_hazards.md section
4) -/
def Obligations.StepTakesTheFaultInPlace : Prop :=
  ∀ (s : State) (bs : List Byte), s.faulted = false → s.pc ≠ s.program.length → s.program.drop s.pc = bs →
    (∀ i : Instr, ¬ encode i <+: bs) →
    ∃ t : State, step s = .next t ∧ step t = .fault .stuck ∧
      t = { s with
        faulted := true
        report := some {
          reason := if bs = [0xCB#8] then .truncated else .notInCore
          info := .bytes (bs.take (if bs.head? = some 0xCB#8 then 2 else 1)) } }

/-- For every state: the step answers the refusal programEnd exactly when the latch is clear and the offset is the
program's length, the fault stuck exactly when the latch is set, and otherwise a next state. That the normal end is
a refusal of the step is the model's choice (log entry 3), and so is the next state of a step that takes the fault
(log entry 2). (70_reset_and_hazards.md section 4, 60_exceptions.md section 3) -/
def Obligations.StepEndsOnlyAtProgramEnd : Prop :=
  ∀ s : State,
    (step s = .refused .programEnd ↔ s.faulted = false ∧ s.pc = s.program.length) ∧
    (step s = .fault .stuck ↔ s.faulted = true) ∧
    (s.faulted = false → s.pc ≠ s.program.length → ∃ t : State, step s = .next t)

/-- In every state whose latch is set, execute answers the fault stuck on any bytes and on any abstract value, and so
does the step; a launch with any init_state clears the latch. (R216) -/
def Obligations.FaultedCoreIsStuck : Prop :=
  ∀ s : State, s.faulted = true →
    (∀ inp : Input, execute inp s = .fault .stuck) ∧ step s = .fault .stuck ∧
    ∀ d : InitState, (s.launch d).faulted = false

/-- From every state that meets the invariant (the offset lies in the program; with the latch clear there is no report;
with the latch set the offset is before the end and the report is exactly the one of the bytes there), a step that
answers a next state answers one that meets it. The field report, and so the two clauses about it, are the model's
own choice (log entry 2), and that a step is one turn of the reference harness is too (log entry 3).
(60_exceptions.md sections 1 to 3, 70_reset_and_hazards.md section 4) -/
def Obligations.StepKeepsInvariant : Prop :=
  ∀ s t : State, s.Inv → step s = .next t → t.Inv

/-- The reset state meets the invariant, and so does any state after a launch with any init_state and the load of any
program. That no report stands at reset and after a launch is the model's own choice (log entry 2), and so is that
the reset state holds no program (log entry 3). (70_reset_and_hazards.md sections 1 and 4) -/
def Obligations.LaunchedStatesMeetInvariant : Prop :=
  State.reset.Inv ∧ ∀ (s : State) (d : InitState) (p : List Byte), ((s.launch d).load p).Inv

/-- For every instruction and state, exec answers a next state (no fault, no refusal) that differs from the state before
in registers and flags alone. (60_exceptions.md section 1, 20_memory.md section 1) -/
def Obligations.NoLegalInstructionFaults : Prop :=
  ∀ (i : Instr) (s : State), ∃ t : State, exec i s = .next t ∧ RestKept s t

/-- For every instruction and state, exec answers a next state in which every register outside those the table gives the
instruction holds what it held: A for the accumulator operations but CP, the target for INC, DEC, SET and RESET, H
and L for ADDHL, none for CP, BIT, CCF and SCF. (10_state.md section 2) -/
def Obligations.RegistersWrittenAsTabled : Prop :=
  ∀ (i : Instr) (s : State), ∃ t : State, exec i s = .next t ∧ RegsKeptBut (writtenRegs i) s t

/-- For every instruction and state, exec answers a next state in which each flag the table marks as unchanged for the
instruction holds what it held. (10_state.md section 3) -/
def Obligations.FlagsKeptAsTabled : Prop :=
  ∀ (i : Instr) (s : State), ∃ t : State, exec i s = .next t ∧
    ((keptFlags i).z = true → t.flags.z = s.flags.z) ∧ ((keptFlags i).n = true → t.flags.n = s.flags.n) ∧
    ((keptFlags i).h = true → t.flags.h = s.flags.h) ∧ ((keptFlags i).c = true → t.flags.c = s.flags.c)

/-- If two states agree on the registers an instruction reads, and on the carry where it is ADC, SBC, RLA, RRA or CCF,
then the registers it writes and the flags it does not keep agree after it; no instruction reads Z, N or H.
(10_state.md sections 2 and 3) -/
def Obligations.ResultsDependOnNamedInputsOnly : Prop :=
  ∀ (i : Instr) (s s' : State), (∀ q ∈ readRegs i, s.reg q = s'.reg q) →
    (readsCarry i = true → s.flags.c = s'.flags.c) →
    ∃ t t' : State, exec i s = .next t ∧ exec i s' = .next t' ∧
      (∀ q ∈ writtenRegs i, t.reg q = t'.reg q) ∧
      ((keptFlags i).z = false → t.flags.z = t'.flags.z) ∧ ((keptFlags i).n = false → t.flags.n = t'.flags.n) ∧
      ((keptFlags i).h = false → t.flags.h = t'.flags.h) ∧ ((keptFlags i).c = false → t.flags.c = t'.flags.c)

/-- After a launch with any init_state from any state, each register and each flag holds the value init_state gives it
and the latch is 0; the latch of the reset state is 0 too. (R230, R231) -/
def Obligations.LaunchTakesInitState : Prop :=
  (∀ (s : State) (d : InitState),
    (s.launch d).reg .a = d.a ∧ (s.launch d).reg .b = d.b ∧ (s.launch d).reg .c = d.c ∧ (s.launch d).reg .d = d.d ∧
    (s.launch d).reg .e = d.e ∧ (s.launch d).reg .h = d.h ∧ (s.launch d).reg .l = d.l ∧
    (s.launch d).flags = { z := d.zero, n := d.subtract, h := d.halfCarry, c := d.carry } ∧
    (s.launch d).faulted = false) ∧
  State.reset.faulted = false

/-- For every flags value, packing puts Z, N, H and C in bits 7, 6, 5 and 4 and 0 in bits 3 to 0, and unpacking gives
the value back; for every byte, unpacking reads bits 7 to 4 and packing again gives the byte with its low nibble
cleared. (R27, R28, R29) -/
def Obligations.FlagsCodecLaws : Prop :=
  (∀ f : Flags, Flags.unpack f.pack = f ∧
    f.pack.toNat = 128 * f.z.toNat + 64 * f.n.toNat + 32 * f.h.toNat + 16 * f.c.toNat) ∧
  ∀ v : Byte, (Flags.unpack v).pack = v &&& 0xF0#8 ∧
    Flags.unpack v = { z := v.getLsbD 7, n := v.getLsbD 6, h := v.getLsbD 5, c := v.getLsbD 4 }

/-- In every state each of BC, DE and HL reads as 256 times its first register plus its second; after a write of any
value, the pair reads as that value, the first register as its high byte and the second as its low byte, and every
other register, every flag and everything else is as it was. (R30, R33) -/
def Obligations.RegisterPairsAreViews : Prop :=
  ∀ (s : State) (v : Word) (p : Pair) (hi lo : Reg8),
    (p, hi, lo) ∈ [(Pair.bc, Reg8.b, Reg8.c), (Pair.de, Reg8.d, Reg8.e), (Pair.hl, Reg8.h, Reg8.l)] →
    (s.pair p).toNat = (s.reg hi).toNat * 256 + (s.reg lo).toNat ∧
    (s.setPair p v).pair p = v ∧
    ((s.setPair p v).reg hi).toNat = v.toNat / 256 ∧ ((s.setPair p v).reg lo).toNat = v.toNat % 256 ∧
    RegsKeptBut [hi, lo] s (s.setPair p v) ∧ (s.setPair p v).flags = s.flags ∧ RestKept s (s.setPair p v)

/-- In every state AF reads as 256 times A plus the packed flags, and its low nibble is 0; after a write of any value A
is the high byte and the flags are unpacked from the low byte, so that AF reads as the value with its low nibble
cleared; every other register and everything else is as it was. Reading F gives the packed flags, and writing F
unpacks into the flags and writes no register. (R31, R32) -/
def Obligations.AfViewDropsLowNibble : Prop :=
  ∀ (s : State) (v : Word) (w : Byte),
    (s.pair .af).toNat = (s.reg .a).toNat * 256 + s.flags.pack.toNat ∧ (s.pair .af).toNat % 16 = 0 ∧
    ((s.setPair .af v).reg .a).toNat = v.toNat / 256 ∧
    (s.setPair .af v).flags = Flags.unpack (BitVec.ofNat 8 v.toNat) ∧
    (s.setPair .af v).pair .af = v &&& 0xFFF0#16 ∧
    RegsKeptBut [.a] s (s.setPair .af v) ∧ RestKept s (s.setPair .af v) ∧
    s.f = s.flags.pack ∧ (s.setF w).flags = Flags.unpack w ∧ RegsKeptBut [] s (s.setF w) ∧ RestKept s (s.setF w)

/-- From every state: RLCA and then RRCA restores A; eight RLCAs restore A and so do eight RRCAs; nine RLAs restore A
and the carry; RLA and then RRA restores A and the carry. (44_rotate.md, corner cases of the four rotates) -/
def Obligations.RotatesRestoreTheAccumulator : Prop :=
  ∀ s : State,
    (∃ t, execSeq [.rlca, .rrca] s = .next t ∧ t.reg .a = s.reg .a) ∧
    (∃ t, execSeq (List.replicate 8 .rlca) s = .next t ∧ t.reg .a = s.reg .a) ∧
    (∃ t, execSeq (List.replicate 8 .rrca) s = .next t ∧ t.reg .a = s.reg .a) ∧
    (∃ t, execSeq (List.replicate 9 .rla) s = .next t ∧ t.reg .a = s.reg .a ∧ t.flags.c = s.flags.c) ∧
    ∃ t, execSeq [.rla, .rra] s = .next t ∧ t.reg .a = s.reg .a ∧ t.flags.c = s.flags.c

/-- From every state: two CPLs leave A, Z and C as they were and N and H 1; two CCFs leave C and Z as they were and N
and H 0. (42_logic.md, corner cases of CPL, 43_carry_flag.md, corner cases of CCF) -/
def Obligations.ComplementsTwiceRestore : Prop :=
  ∀ s : State,
    (∃ t, execSeq [.cpl, .cpl] s = .next t ∧ t.reg .a = s.reg .a ∧
      t.flags = { z := s.flags.z, n := true, h := true, c := s.flags.c }) ∧
    ∃ t, execSeq [.ccf, .ccf] s = .next t ∧ (∀ q, t.reg q = s.reg q) ∧
      t.flags = { z := s.flags.z, n := false, h := false, c := s.flags.c }

/-- From every state, for any two bit indexes and registers: BIT c,q after SET b,r clears Z if the two name one bit and
else leaves the Z that BIT c,q alone gives; after RESET b,r it sets Z, or likewise. (45_bit.md section on BIT, SET
and RESET) -/
def Obligations.BitReadsWhatSetAndResetWrote : Prop :=
  ∀ (b c : Fin 8) (r q : Reg8) (s : State),
    (∃ t, execSeq [.set b r, .bit c q] s = .next t ∧
      t.flags.z = if c = b ∧ q = r then false else !(s.reg q).getLsbD c) ∧
    ∃ t, execSeq [.reset b r, .bit c q] s = .next t ∧
      t.flags.z = if c = b ∧ q = r then true else !(s.reg q).getLsbD c

/-- From every state and for every register: ADC after SCF adds 1 more and SBC after SCF takes 1 more; RLA after ADD r
rotates the carry of that addition into bit 0, and RRA after CP r the borrow of that comparison into bit 7.
(70_reset_and_hazards.md section 3, 95_test_vectors.md section 6) -/
def Obligations.CarryIsReadAsJustWritten : Prop :=
  ∀ (r : Reg8) (s : State),
    (∃ t, execSeq [.scf, .adc r] s = .next t ∧ (t.reg .a).toNat = ((s.reg .a).toNat + (s.reg r).toNat + 1) % 256) ∧
    (∃ t, execSeq [.scf, .sbc r] s = .next t ∧
      ((t.reg .a).toNat : Int) = (((s.reg .a).toNat : Int) - (s.reg r).toNat - 1) % 256) ∧
    (∃ t, execSeq [.add r, .rla] s = .next t ∧
      (t.reg .a).toNat % 2 = ((s.reg .a).toNat + (s.reg r).toNat) / 256) ∧
    ∃ t, execSeq [.cp r, .rra] s = .next t ∧ ((t.reg .a).toNat ≥ 128 ↔ (s.reg .a).toNat < (s.reg r).toNat)

/-- For every list of instructions and every init_state, the harness run of the list's encodings one after the other
ends normally, in the state that executing the instructions in order from the launched state gives, with the offset
at the end of the program. (70_reset_and_hazards.md section 4, 20_memory.md section 4) -/
def Obligations.StraightLineRunEndsNormally : Prop :=
  ∀ (is : List Instr) (d : InitState),
    ∃ t : State, execSeq is (harnessStart (is.flatMap encode) d) = .next t ∧
      harnessRun (is.flatMap encode) d = some (.normal { t with pc := (is.flatMap encode).length })

/-- For every list of instructions followed by bytes that begin with no instruction's encoding (and are not none), and
every init_state, the harness run ends faulted at the offset of those bytes, in the state that executing the
instructions in order gives, but for the offset, the latch set and the report of those bytes. The field report,
which holds the outcome of the fault, is the model's own choice (log entry 2). (60_exceptions.md section 1,
70_reset_and_hazards.md section 4) -/
def Obligations.FaultIsPrecise : Prop :=
  ∀ (is : List Instr) (bs : List Byte) (d : InitState), bs ≠ [] → (∀ i : Instr, ¬ encode i <+: bs) →
    ∃ t : State, execSeq is (harnessStart (is.flatMap encode ++ bs) d) = .next t ∧
      harnessRun (is.flatMap encode ++ bs) d = some (.faulted { t with
        pc := (is.flatMap encode).length
        faulted := true
        report := some {
          reason := if bs = [0xCB#8] then .truncated else .notInCore
          info := .bytes (bs.take (if bs.head? = some 0xCB#8 then 2 else 1)) } } (is.flatMap encode).length)

/-- For every list of bytes and every init_state, the harness run reaches an end within as many turns as the list has
bytes: a normal end with the latch clear and the offset at the end of the list, or a faulted end with the latch set,
the offset before the end and the report of the fault the bytes there raise. The field report, which holds the
outcome of the fault, is the model's own choice (log entry 2). (70_reset_and_hazards.md sections 4 and 5) -/
def Obligations.RunEndsWithinProgramLength : Prop :=
  ∀ (p : List Byte) (d : InitState),
    (∃ t : State, harnessRun p d = some (.normal t) ∧ t.faulted = false ∧ t.pc = p.length ∧ t.program = p) ∨
    ∃ (t : State) (r : FaultReport), harnessRun p d = some (.faulted t t.pc) ∧ t.faulted = true ∧ t.pc < p.length ∧
      t.program = p ∧ t.report = some r ∧ resolve (.bytes (p.drop t.pc)) = .error r

/-- For every list of bytes and every init_state, the harness run ends normally if and only if the bytes are the
encodings of some list of instructions one after the other, whatever the init_state. (70_reset_and_hazards.md
section 4, 30_encoding.md sections 3 and 4, 60_exceptions.md section 1) -/
def Obligations.SafeRunsAreTheLegalPrograms : Prop :=
  ∀ (p : List Byte) (d : InitState), SafeRun p d ↔ ∃ is : List Instr, p = is.flatMap encode
end

