-- ==== Sys2Proof/Laws/State.lean ====
section
/-! SUPPORT. One lemma per field per update of State and RegFile, each true by `rfl` (or by cases on the register). -/

namespace Sys2Proof.Machine

@[simp] theorem RegFile.reg_setReg_same (f : RegFile) (r : Reg8) (v : Byte) : (f.setReg r v).reg r = v := by
  cases r <;> rfl

@[simp] theorem RegFile.reg_setReg_ne (f : RegFile) {r q : Reg8} (v : Byte) (h : q ≠ r) :
    (f.setReg r v).reg q = f.reg q := by
  cases r <;> cases q <;> first | rfl | exact absurd rfl h

@[simp] theorem RegFile.flags_setReg (f : RegFile) (r : Reg8) (v : Byte) : (f.setReg r v).flags = f.flags := by
  cases r <;> rfl

@[simp] theorem RegFile.reg_with_flags (f : RegFile) (g : Flags) (q : Reg8) :
    ({ f with flags := g } : RegFile).reg q = f.reg q := by
  cases q <;> rfl

@[simp] theorem State.reg_setReg_same (s : State) (r : Reg8) (v : Byte) : (s.setReg r v).reg r = v :=
  s.regs.reg_setReg_same r v

@[simp] theorem State.reg_setReg_ne (s : State) {r q : Reg8} (v : Byte) (h : q ≠ r) :
    (s.setReg r v).reg q = s.reg q :=
  s.regs.reg_setReg_ne v h

theorem State.reg_setReg (s : State) (r q : Reg8) (v : Byte) :
    (s.setReg r v).reg q = if q = r then v else s.reg q := by
  split <;> simp_all

@[simp] theorem State.flags_setReg (s : State) (r : Reg8) (v : Byte) : (s.setReg r v).flags = s.flags :=
  s.regs.flags_setReg r v

@[simp] theorem State.reg_setFlags (s : State) (f : Flags) (q : Reg8) : (s.setFlags f).reg q = s.reg q :=
  s.regs.reg_with_flags f q

@[simp] theorem State.flags_setFlags (s : State) (f : Flags) : (s.setFlags f).flags = f := rfl

/-- The writeback (30_encoding.md R78) writes the destination and the flags, and no other register. -/
@[simp] theorem State.reg_writeback_same (s : State) (r : Reg8) (v : Byte) (f : Flags) :
    (s.writeback r v f).reg r = v := by
  simp [State.writeback]

@[simp] theorem State.reg_writeback_ne (s : State) {r q : Reg8} (v : Byte) (f : Flags) (h : q ≠ r) :
    (s.writeback r v f).reg q = s.reg q := by
  simp [State.writeback, h]

@[simp] theorem State.flags_writeback (s : State) (r : Reg8) (v : Byte) (f : Flags) :
    (s.writeback r v f).flags = f := rfl

@[simp] theorem State.flags_setF (s : State) (v : Byte) : (s.setF v).flags = Flags.unpack v := rfl

@[simp] theorem State.reg_setF (s : State) (v : Byte) (q : Reg8) : (s.setF v).reg q = s.reg q :=
  s.reg_setFlags _ q

@[simp] theorem State.f_setF (s : State) (v : Byte) : (s.setF v).f = (Flags.unpack v).pack := rfl

@[simp] theorem State.faulted_setReg (s : State) (r : Reg8) (v : Byte) : (s.setReg r v).faulted = s.faulted := rfl

@[simp] theorem State.report_setReg (s : State) (r : Reg8) (v : Byte) : (s.setReg r v).report = s.report := rfl

@[simp] theorem State.program_setReg (s : State) (r : Reg8) (v : Byte) : (s.setReg r v).program = s.program := rfl

@[simp] theorem State.pc_setReg (s : State) (r : Reg8) (v : Byte) : (s.setReg r v).pc = s.pc := rfl

@[simp] theorem State.faulted_setFlags (s : State) (f : Flags) : (s.setFlags f).faulted = s.faulted := rfl

@[simp] theorem State.report_setFlags (s : State) (f : Flags) : (s.setFlags f).report = s.report := rfl

@[simp] theorem State.program_setFlags (s : State) (f : Flags) : (s.setFlags f).program = s.program := rfl

@[simp] theorem State.pc_setFlags (s : State) (f : Flags) : (s.setFlags f).pc = s.pc := rfl

@[simp] theorem State.faulted_writeback (s : State) (r : Reg8) (v : Byte) (f : Flags) : (s.writeback r v f).faulted = s.faulted := rfl

@[simp] theorem State.report_writeback (s : State) (r : Reg8) (v : Byte) (f : Flags) : (s.writeback r v f).report = s.report := rfl

@[simp] theorem State.program_writeback (s : State) (r : Reg8) (v : Byte) (f : Flags) : (s.writeback r v f).program = s.program := rfl

@[simp] theorem State.pc_writeback (s : State) (r : Reg8) (v : Byte) (f : Flags) : (s.writeback r v f).pc = s.pc := rfl

@[simp] theorem State.faulted_setF (s : State) (v : Byte) : (s.setF v).faulted = s.faulted := rfl

@[simp] theorem State.report_setF (s : State) (v : Byte) : (s.setF v).report = s.report := rfl

@[simp] theorem State.program_setF (s : State) (v : Byte) : (s.setF v).program = s.program := rfl

@[simp] theorem State.pc_setF (s : State) (v : Byte) : (s.setF v).pc = s.pc := rfl

@[simp] theorem State.faulted_setPair (s : State) (p : Pair) (v : Word) : (s.setPair p v).faulted = s.faulted := by
  cases p <;> rfl

@[simp] theorem State.report_setPair (s : State) (p : Pair) (v : Word) : (s.setPair p v).report = s.report := by
  cases p <;> rfl

@[simp] theorem State.program_setPair (s : State) (p : Pair) (v : Word) : (s.setPair p v).program = s.program := by
  cases p <;> rfl

@[simp] theorem State.pc_setPair (s : State) (p : Pair) (v : Word) : (s.setPair p v).pc = s.pc := by
  cases p <;> rfl

@[simp] theorem State.regs_raiseFault (s : State) (r : FaultReport) : (s.raiseFault r).regs = s.regs := rfl

@[simp] theorem State.faulted_raiseFault (s : State) (r : FaultReport) : (s.raiseFault r).faulted = true := rfl

@[simp] theorem State.report_raiseFault (s : State) (r : FaultReport) : (s.raiseFault r).report = some r := rfl

@[simp] theorem State.program_raiseFault (s : State) (r : FaultReport) : (s.raiseFault r).program = s.program := rfl

@[simp] theorem State.pc_raiseFault (s : State) (r : FaultReport) : (s.raiseFault r).pc = s.pc := rfl

@[simp] theorem State.flags_raiseFault (s : State) (r : FaultReport) : (s.raiseFault r).flags = s.flags := rfl

@[simp] theorem State.reg_raiseFault (s : State) (r : FaultReport) (q : Reg8) : (s.raiseFault r).reg q = s.reg q := rfl

@[simp] theorem State.regs_launch (s : State) (d : InitState) : (s.launch d).regs = RegFile.ofInit d := rfl

@[simp] theorem State.faulted_launch (s : State) (d : InitState) : (s.launch d).faulted = false := rfl

@[simp] theorem State.report_launch (s : State) (d : InitState) : (s.launch d).report = none := rfl

@[simp] theorem State.program_launch (s : State) (d : InitState) : (s.launch d).program = s.program := rfl

@[simp] theorem State.pc_launch (s : State) (d : InitState) : (s.launch d).pc = s.pc := rfl

@[simp] theorem State.regs_load (s : State) (p : List Byte) : (s.load p).regs = s.regs := rfl

@[simp] theorem State.faulted_load (s : State) (p : List Byte) : (s.load p).faulted = s.faulted := rfl

@[simp] theorem State.report_load (s : State) (p : List Byte) : (s.load p).report = s.report := rfl

@[simp] theorem State.program_load (s : State) (p : List Byte) : (s.load p).program = p := rfl

@[simp] theorem State.pc_load (s : State) (p : List Byte) : (s.load p).pc = 0 := rfl

@[simp] theorem State.flags_load (s : State) (p : List Byte) : (s.load p).flags = s.flags := rfl

@[simp] theorem State.reg_load (s : State) (p : List Byte) (q : Reg8) : (s.load p).reg q = s.reg q := rfl

@[simp] theorem State.regs_advance (s : State) (n : Nat) : (s.advance n).regs = s.regs := rfl

@[simp] theorem State.faulted_advance (s : State) (n : Nat) : (s.advance n).faulted = s.faulted := rfl

@[simp] theorem State.report_advance (s : State) (n : Nat) : (s.advance n).report = s.report := rfl

@[simp] theorem State.program_advance (s : State) (n : Nat) : (s.advance n).program = s.program := rfl

@[simp] theorem State.pc_advance (s : State) (n : Nat) : (s.advance n).pc = s.pc + n := rfl

@[simp] theorem State.flags_advance (s : State) (n : Nat) : (s.advance n).flags = s.flags := rfl

@[simp] theorem State.reg_advance (s : State) (n : Nat) (q : Reg8) : (s.advance n).reg q = s.reg q := rfl

/-- A state is its register file and the rest. -/
theorem State.eq_with_regs {s t : State} (h : RestKept s t) : t = { s with regs := t.regs } := by
  obtain ⟨h1, h2, h3, h4⟩ := h
  cases s
  cases t
  simp_all

@[simp] theorem RestKept.refl (s : State) : RestKept s s := ⟨rfl, rfl, rfl, rfl⟩

theorem RestKept.trans {s t u : State} (h : RestKept s t) (k : RestKept t u) : RestKept s u :=
  ⟨k.1.trans h.1, k.2.1.trans h.2.1, k.2.2.1.trans h.2.2.1, k.2.2.2.trans h.2.2.2⟩

end Sys2Proof.Machine
end

