-- ==== Sys2Proof/Laws/Operands.lean ====
section
/-! SUPPORT. What the operand forms and the pair views do (10_state.md R30, R31, R33) and the flags codec (R27 to R29). -/

namespace Sys2Proof.Machine

theorem highByte_toNat (v : Word) : (highByte v).toNat = v.toNat / 256 := by
  simp [highByte, BitVec.extractLsb'_toNat, Nat.shiftRight_eq_div_pow]
  have := v.isLt
  omega

theorem lowByte_toNat (v : Word) : (lowByte v).toNat = v.toNat % 256 := by
  simp [lowByte, BitVec.extractLsb'_toNat]

theorem joinBytes_toNat (hi lo : Byte) : (joinBytes hi lo).toNat = hi.toNat * 256 + lo.toNat := by
  have h := Nat.two_pow_add_eq_or_of_lt lo.isLt hi.toNat
  rw [joinBytes, BitVec.toNat_append, Nat.shiftLeft_eq, Nat.mul_comm, ← h, Nat.mul_comm]

@[simp] theorem highByte_joinBytes (hi lo : Byte) : highByte (joinBytes hi lo) = hi := by
  apply BitVec.eq_of_toNat_eq
  rw [highByte_toNat, joinBytes_toNat]
  omega

@[simp] theorem lowByte_joinBytes (hi lo : Byte) : lowByte (joinBytes hi lo) = lo := by
  apply BitVec.eq_of_toNat_eq
  rw [lowByte_toNat, joinBytes_toNat]
  omega

@[simp] theorem joinBytes_high_low (v : Word) : joinBytes (highByte v) (lowByte v) = v := by
  apply BitVec.eq_of_toNat_eq
  rw [joinBytes_toNat, highByte_toNat, lowByte_toNat]
  omega

/-- The four flags of a packed byte are its bits 7 to 4, and bits 3 to 0 are 0 (R27). -/
theorem Flags.pack_bits (f : Flags) :
    f.pack.getLsbD 7 = f.z ∧ f.pack.getLsbD 6 = f.n ∧ f.pack.getLsbD 5 = f.h ∧ f.pack.getLsbD 4 = f.c ∧
      f.pack &&& 0x0F#8 = 0#8 := by
  obtain ⟨z, n, h, c⟩ := f
  cases z <;> cases n <;> cases h <;> cases c <;> decide

@[simp] theorem Flags.unpack_pack (f : Flags) : Flags.unpack f.pack = f := by
  obtain ⟨h1, h2, h3, h4, -⟩ := f.pack_bits
  rw [Flags.unpack, h1, h2, h3, h4]

/-- The two half writes of HL and what they leave alone (R33). -/
theorem State.reg_setPair_hl (s : State) (v : Word) (q : Reg8) :
    (s.setPair .hl v).reg q = if q = .l then lowByte v else if q = .h then highByte v else s.reg q := by
  simp [State.setPair, State.reg_setReg]

@[simp] theorem State.flags_setPair_hl (s : State) (v : Word) : (s.setPair .hl v).flags = s.flags := rfl

@[simp] theorem State.pair_setPair_hl (s : State) (v : Word) : (s.setPair .hl v).pair .hl = v := by
  simp [State.pair, State.reg_setPair_hl]

@[simp] theorem State.pair_hl_setFlags (s : State) (f : Flags) : (s.setFlags f).pair .hl = s.pair .hl := by
  simp [State.pair]

end Sys2Proof.Machine
end

