-- ==== Sys2Proof/Laws/Alu.lean ====
section
/-! SUPPORT. What the ALU primitives answer, in exact arithmetic (40_arith8.md R100, R101; 41_arith16.md R130) and bit by
bit (44_rotate.md, 45_bit.md). -/

namespace Sys2Proof.Machine

theorem lowNibble_eq (v : Byte) : lowNibble v = v.toNat % 16 :=
  Nat.and_two_pow_sub_one_eq_mod v.toNat 4

theorem low12_eq (v : Word) : low12 v = v.toNat % 4096 :=
  Nat.and_two_pow_sub_one_eq_mod v.toNat 12

theorem isZero_iff {w : Nat} (v : BitVec w) : isZero v = true ↔ v.toNat = 0 := by
  simp [isZero]

theorem add8_spec (p q : Byte) (cin : Bool) :
    (add8 p q cin).res.toNat = (p.toNat + q.toNat + cin.toNat) % 256 ∧
      ((add8 p q cin).z = true ↔ (p.toNat + q.toNat + cin.toNat) % 256 = 0) ∧
      ((add8 p q cin).h = true ↔ p.toNat % 16 + q.toNat % 16 + cin.toNat > 15) ∧
      ((add8 p q cin).c = true ↔ p.toNat + q.toNat + cin.toNat > 255) := by
  simp [add8, isZero, lowNibble_eq]

theorem sub8_spec (p q : Byte) (cin : Bool) :
    ((sub8 p q cin).res.toNat : Int) = ((p.toNat : Int) - q.toNat - cin.toNat) % 256 ∧
      ((sub8 p q cin).z = true ↔ ((p.toNat : Int) - q.toNat - cin.toNat) % 256 = 0) ∧
      ((sub8 p q cin).h = true ↔ p.toNat % 16 < q.toNat % 16 + cin.toNat) ∧
      ((sub8 p q cin).c = true ↔ p.toNat < q.toNat + cin.toNat) := by
  have h : ((BitVec.ofInt 8 ((p.toNat : Int) - q.toNat - cin.toNat)).toNat : Int)
      = ((p.toNat : Int) - q.toNat - cin.toNat) % 256 := by
    rw [BitVec.toNat_ofInt]
    omega
  refine ⟨h, ?_, by simp [sub8, lowNibble_eq], by simp [sub8]⟩
  rw [← h]
  simp [sub8, isZero]

theorem add16_spec (p q : Word) :
    (add16 p q).res.toNat = (p.toNat + q.toNat) % 65536 ∧
      ((add16 p q).z = true ↔ (p.toNat + q.toNat) % 65536 = 0) ∧
      ((add16 p q).h = true ↔ p.toNat % 4096 + q.toNat % 4096 > 4095) ∧
      ((add16 p q).c = true ↔ p.toNat + q.toNat > 65535) := by
  simp [add16, isZero, low12_eq]

theorem rl8_toNat (v : Byte) (cin : Bool) : (rl8 v cin).toNat = (2 * v.toNat + cin.toNat) % 256 := by
  have h : (v.toNat <<< 1) ||| cin.toNat = 2 * v.toNat + cin.toNat := by
    have := Nat.two_pow_add_eq_or_of_lt (i := 1) (b := cin.toNat) (by cases cin <;> decide) v.toNat
    rw [Nat.shiftLeft_eq, Nat.mul_comm, ← this]
  rw [rl8, BitVec.toNat_ofNat, h]

theorem rr8_toNat (v : Byte) (cin : Bool) : (rr8 v cin).toNat = v.toNat / 2 + 128 * cin.toNat := by
  have hv : v.toNat / 2 < 2 ^ 7 := by omega
  have h : (v.toNat >>> 1) ||| (cin.toNat <<< 7) = v.toNat / 2 + 128 * cin.toNat := by
    have := Nat.two_pow_add_eq_or_of_lt hv cin.toNat
    rw [Nat.shiftLeft_eq, Nat.mul_comm cin.toNat, Nat.shiftRight_eq_div_pow, Nat.or_comm, pow_one, ← this]
    omega
  rw [rr8, BitVec.toNat_ofNat, h]
  cases cin <;> simp <;> omega

theorem getLsbD_rl8 (v : Byte) (cin : Bool) (j : Fin 8) :
    (rl8 v cin).getLsbD j = if j.val = 0 then cin else v.getLsbD (j.val - 1) := by
  obtain ⟨j, hj⟩ := j
  simp only [rl8, BitVec.getLsbD_ofNat, Nat.testBit_or, Nat.testBit_shiftLeft, hj, decide_true, Bool.true_and]
  cases j with
  | zero => cases cin <;> rfl
  | succ k =>
    have h : cin.toNat.testBit (k + 1) = false := by cases cin <;> simp [Nat.testBit_succ]
    simp [h, BitVec.getLsbD]

theorem getLsbD_rr8 (v : Byte) (cin : Bool) (j : Fin 8) :
    (rr8 v cin).getLsbD j = if j.val = 7 then cin else v.getLsbD (j.val + 1) := by
  obtain ⟨j, hj⟩ := j
  simp only [rr8, BitVec.getLsbD_ofNat, Nat.testBit_or, Nat.testBit_shiftRight, Nat.testBit_shiftLeft, hj, decide_true,
    Bool.true_and]
  by_cases h : j = 7
  · subst h
    have h8 : v.toNat.testBit 8 = false := Nat.testBit_lt_two_pow v.isLt
    cases cin <;> simp [h8]
  · have h7 : ¬ 7 ≤ j := by omega
    simp [h, h7, BitVec.getLsbD, Nat.add_comm]

theorem getLsbD_setBit8 (v : Byte) (b j : Fin 8) :
    (setBit8 v b).getLsbD j = (decide (j = b) || v.getLsbD j) := by
  have := b.isLt
  have := j.isLt
  have e : decide (j.val = b.val) = decide (j = b) := by simp [Fin.ext_iff]
  by_cases h : j = b
  · subst h; simp [setBit8]
  · have h' : j.val ≠ b.val := fun k => h (Fin.ext k)
    simp [setBit8, h]
    omega

theorem getLsbD_resetBit8 (v : Byte) (b j : Fin 8) :
    (resetBit8 v b).getLsbD j = (!decide (j = b) && v.getLsbD j) := by
  have := j.isLt
  by_cases h : j = b
  · subst h; simp [resetBit8]
  · have h' : j.val ≠ b.val := fun k => h (Fin.ext k)
    simp [resetBit8, h]
    omega

theorem testBit8_setBit8 (v : Byte) (b j : Fin 8) :
    testBit8 (setBit8 v b) j = (decide (j = b) || testBit8 v j) :=
  getLsbD_setBit8 v b j

theorem testBit8_resetBit8 (v : Byte) (b j : Fin 8) :
    testBit8 (resetBit8 v b) j = (!decide (j = b) && testBit8 v j) :=
  getLsbD_resetBit8 v b j

end Sys2Proof.Machine
end

