-- ==== Sys2Proof/Laws/Decode.lean ====
section
/-! SUPPORT. What the decoder and the encoder do, field by field and format by format (30_encoding.md R62 to R72). -/

namespace Sys2Proof

@[simp] theorem reg8OfCode_code (r : Reg8) : reg8OfCode r.code = some r := by
  cases r <;> rfl

@[simp] theorem reg16OfCode_code (rr : Reg16) : reg16OfCode rr.code = some rr := by
  cases rr <;> rfl

@[simp] theorem toReg8_toOperand (r : Reg8) : r.toOperand.toReg8 = some r := by
  cases r <;> rfl

@[simp] theorem toReg16_toOperand (rr : Reg16) : rr.toOperand.toReg16 = some rr := by
  cases rr <;> rfl

/-- An instruction answered for a form is the one found, with the form's length. -/
theorem ofOption_eq_instr {n m : Nat} {o : Option Instr} {i : Instr} (h : Decoded.ofOption n o = .instr i m) :
    o = some i ∧ m = n := by
  cases o with
  | none => cases h
  | some j => cases h; exact ⟨rfl, rfl⟩

/-- The bytes of a decoder answer are those of one of four cases (R72). -/
theorem decode_cases (bs : List Byte) :
    (bs = [] ∧ decode bs = .notInCore 0) ∨
    (bs = [0xCB#8] ∧ decode bs = .truncated) ∨
    (∃ b1 rest, bs = 0xCB#8 :: b1 :: rest ∧
      decode bs = Decoded.ofOption 2 (instrOfCBByte b1)) ∨
    (∃ b0 rest, b0 ≠ 0xCB#8 ∧ bs = b0 :: rest ∧
      decode bs = Decoded.ofOption 1 (instrOfByte b0)) := by
  match bs with
  | [] => exact .inl ⟨rfl, rfl⟩
  | b0 :: rest =>
    by_cases h : b0 = 0xCB#8
    · subst h
      match rest with
      | [] => exact .inr (.inl ⟨rfl, rfl⟩)
      | b1 :: more => exact .inr (.inr (.inl ⟨b1, more, rfl, by simp [decode]⟩))
    · exact .inr (.inr (.inr ⟨b0, rest, h, rfl, by simp [decode, h]⟩))

/-- A decoded instruction's length lies within the bytes, and is not 0 (R65). -/
theorem decode_length {bs : List Byte} {i : Instr} {n : Nat} (h : decode bs = .instr i n) :
    0 < n ∧ n ≤ bs.length := by
  obtain ⟨rfl, e⟩ | ⟨rfl, e⟩ | ⟨b1, rest, rfl, e⟩ | ⟨b0, rest, -, rfl, e⟩ := decode_cases bs
  · simp [e] at h
  · simp [e] at h
  · obtain ⟨-, rfl⟩ := ofOption_eq_instr (e.symm.trans h)
    simp
  · obtain ⟨-, rfl⟩ := ofOption_eq_instr (e.symm.trans h)
    simp

/-- The decoder looks at no byte past the instruction (R72). -/
theorem decode_append {bs : List Byte} {i : Instr} {n : Nat} (h : decode bs = .instr i n) (more : List Byte) :
    decode (bs ++ more) = .instr i n := by
  obtain ⟨rfl, e⟩ | ⟨rfl, e⟩ | ⟨b1, rest, rfl, -⟩ | ⟨b0, rest, h0, rfl, -⟩ := decode_cases bs
  · simp [e] at h
  · simp [e] at h
  · exact h
  · simpa [decode, h0] using h

/-- The r8 field of a CB form's second byte (R66). -/
@[simp] theorem extractLsb_encodeCBByte (k : BitVec 2) (b : Fin 8) (r : Reg8) :
    (encodeCBByte k b r).extractLsb 2 0 = r.code := by
  ext j hj
  have h : j < 3 := by omega
  have e := BitVec.getLsbD_append (x := k ++ (BitVec.ofFin b : BitVec 3)) (y := r.code) (i := j)
  rw [if_pos h] at e
  simpa [encodeCBByte, h] using e

theorem RegOp.present_toInstr (op : RegOp) (r : Reg8) : (op.toInstr r).present = .reg op r.toOperand := by
  cases op <;> rfl

theorem PlainOp.present_toInstr (op : PlainOp) : op.toInstr.present = .plain op := by
  cases op <;> rfl

theorem BitOp.present_toInstr (op : BitOp) (b : Fin 8) (r : Reg8) :
    (op.toInstr b r).present = .bitwise op b.val r.toOperand := by
  cases op <;> rfl

theorem Operand.eq_of_toReg8 {t : Operand} {r : Reg8} (h : t.toReg8 = some r) : t = r.toOperand := by
  cases t <;> cases h <;> rfl

theorem Operand.eq_of_toReg16 {t : Operand} {rr : Reg16} (h : t.toReg16 = some rr) : t = rr.toOperand := by
  cases t <;> cases h <;> rfl

/-- The check accepts the value an instruction presents, as that instruction (R61, R213). -/
@[simp] theorem validate_present (i : Instr) : validate i.present = .ok i := by
  cases i <;> simp [Instr.present, validate, RegOp.toInstr, PlainOp.toInstr, BitOp.toInstr]

/-- A value the check accepts is the one its instruction presents. -/
theorem present_of_validate {v : PresentedInstr} {i : Instr} (h : validate v = .ok i) : i.present = v := by
  cases v with
  | reg op t =>
    rw [validate] at h
    split at h <;> cases h
    next r hr => rw [RegOp.present_toInstr, Operand.eq_of_toReg8 hr]
  | addhl t =>
    rw [validate] at h
    split at h <;> cases h
    next rr hr => rw [Operand.eq_of_toReg16 hr]; rfl
  | plain op =>
    cases h
    exact PlainOp.present_toInstr op
  | bitwise op b t =>
    rw [validate] at h
    split at h
    · cases h
    next r hr =>
      split at h <;> cases h
      rw [BitOp.present_toInstr, Operand.eq_of_toReg8 hr]

end Sys2Proof
end

