-- ==== Sys2Proof/Laws/PerInstr.lean ====
section
/-! SUPPORT. Facts made once per instruction: the length of an encoding (30_encoding.md R65). -/

namespace Sys2Proof.Laws

/-- BIT, SET and RESET are two bytes, the prefix first; every other instruction is one byte, which is not the prefix. -/
def EncodeLength.Statement (i : Instr) : Prop :=
  (∃ b0, encode i = [b0] ∧ b0 ≠ 0xCB#8) ∨ (∃ b1, encode i = [0xCB#8, b1])

theorem EncodeLength.add (r : Reg8) : EncodeLength.Statement (.add r) := .inl ⟨_, rfl, by cases r <;> decide⟩

theorem EncodeLength.adc (r : Reg8) : EncodeLength.Statement (.adc r) := .inl ⟨_, rfl, by cases r <;> decide⟩

theorem EncodeLength.sub (r : Reg8) : EncodeLength.Statement (.sub r) := .inl ⟨_, rfl, by cases r <;> decide⟩

theorem EncodeLength.sbc (r : Reg8) : EncodeLength.Statement (.sbc r) := .inl ⟨_, rfl, by cases r <;> decide⟩

theorem EncodeLength.and (r : Reg8) : EncodeLength.Statement (.and r) := .inl ⟨_, rfl, by cases r <;> decide⟩

theorem EncodeLength.xor (r : Reg8) : EncodeLength.Statement (.xor r) := .inl ⟨_, rfl, by cases r <;> decide⟩

theorem EncodeLength.or (r : Reg8) : EncodeLength.Statement (.or r) := .inl ⟨_, rfl, by cases r <;> decide⟩

theorem EncodeLength.cp (r : Reg8) : EncodeLength.Statement (.cp r) := .inl ⟨_, rfl, by cases r <;> decide⟩

theorem EncodeLength.inc (r : Reg8) : EncodeLength.Statement (.inc r) := .inl ⟨_, rfl, by cases r <;> decide⟩

theorem EncodeLength.dec (r : Reg8) : EncodeLength.Statement (.dec r) := .inl ⟨_, rfl, by cases r <;> decide⟩

theorem EncodeLength.addhl (rr : Reg16) : EncodeLength.Statement (.addhl rr) := .inl ⟨_, rfl, by cases rr <;> decide⟩

theorem EncodeLength.rlca : EncodeLength.Statement .rlca := .inl ⟨_, rfl, by decide⟩

theorem EncodeLength.rrca : EncodeLength.Statement .rrca := .inl ⟨_, rfl, by decide⟩

theorem EncodeLength.rla : EncodeLength.Statement .rla := .inl ⟨_, rfl, by decide⟩

theorem EncodeLength.rra : EncodeLength.Statement .rra := .inl ⟨_, rfl, by decide⟩

theorem EncodeLength.cpl : EncodeLength.Statement .cpl := .inl ⟨_, rfl, by decide⟩

theorem EncodeLength.scf : EncodeLength.Statement .scf := .inl ⟨_, rfl, by decide⟩

theorem EncodeLength.ccf : EncodeLength.Statement .ccf := .inl ⟨_, rfl, by decide⟩

theorem EncodeLength.bit (b : Fin 8) (r : Reg8) : EncodeLength.Statement (.bit b r) := .inr ⟨_, rfl⟩

theorem EncodeLength.reset (b : Fin 8) (r : Reg8) : EncodeLength.Statement (.reset b r) := .inr ⟨_, rfl⟩

theorem EncodeLength.set (b : Fin 8) (r : Reg8) : EncodeLength.Statement (.set b r) := .inr ⟨_, rfl⟩

end Sys2Proof.Laws
end

