-- ==== Sys2Proof/Laws/Step.lean ====
section
/-! SUPPORT. What `exec`, `execute` and `step` can do, said once (60_exceptions.md R211, R213, R216; 70_reset_and_hazards.md
R236). -/

namespace Sys2Proof.Machine

/-- A next state of `exec` differs from the state before in its register file alone. -/
theorem exec_next {i : Instr} {s t : State} (h : exec i s = .next t) : RestKept s t := by
  cases i <;> cases h <;> first | exact ⟨rfl, rfl, rfl, rfl⟩

/-- Bytes that decode stand for their instruction (R213). -/
theorem resolve_instr {bs : List Byte} {i : Instr} {n : Nat} (h : decode bs = .instr i n) :
    resolve (.bytes bs) = .ok i := by
  simp [resolve, h]

/-- Bytes that stand for an instruction decode to it. -/
theorem decode_of_resolve {bs : List Byte} {i : Instr} (h : resolve (.bytes bs) = .ok i) :
    ∃ n, decode bs = .instr i n := by
  rw [resolve] at h
  split at h <;> cases h
  next n e => exact ⟨n, e⟩

/-- The value an instruction presents stands for it (R37). -/
@[simp] theorem resolve_present (i : Instr) : resolve (.value i.present) = .ok i := by
  simp [resolve]

/-- `execute` on an input that stands for an instruction (R213). -/
theorem execute_ok {inp : Input} {i : Instr} {s : State} (hf : s.faulted = false) (h : resolve inp = .ok i) :
    execute inp s = exec i s := by
  simp [execute, hf, h]

/-- `execute` on an input that raises the fault (R211). -/
theorem execute_error {inp : Input} {r : FaultReport} {s : State} (hf : s.faulted = false)
    (h : resolve inp = .error r) : execute inp s = .next (s.raiseFault r) := by
  simp [execute, hf, h]

/-- `execute` on a faulted core (R216). -/
theorem execute_faulted {s : State} (hf : s.faulted = true) (inp : Input) : execute inp s = .fault .stuck := by
  simp [execute, hf]

/-- What a step that answers a next state can be: the decoded instruction and the move past it, or the fault taken. -/
theorem step_next {s t : State} (h : step s = .next t) :
    s.faulted = false ∧ s.pc ≠ s.program.length ∧
      ((∃ i n u, decode s.fetch = .instr i n ∧ exec i s = .next u ∧ t = u.advance n) ∨
       (∃ r, resolve (.bytes s.fetch) = .error r ∧ t = s.raiseFault r)) := by
  unfold step harnessTurn at h
  cases hf : s.faulted with
  | true => simp [hf] at h
  | false =>
    by_cases hp : s.pc = s.program.length
    · simp [hf, hp] at h
    · refine ⟨rfl, hp, ?_⟩
      simp only [hf, hp, Bool.false_eq_true, if_false] at h
      cases hr : resolve (.bytes s.fetch) with
      | error r =>
        rw [execute_error hf hr] at h
        cases h
        exact .inr ⟨r, rfl, rfl⟩
      | ok i =>
        rw [execute_ok hf hr] at h
        obtain ⟨n, e⟩ := decode_of_resolve hr
        split at h
        next u hu =>
          rw [(exec_next hu).1.trans hf, e] at h
          cases h
          exact .inl ⟨i, n, u, e, hu, rfl⟩
        all_goals cases h

end Sys2Proof.Machine
end

