-- ==== Sys2Proof/Tests/Slice0.lean ====
section
/-! SUPPORT. The model's own tests. Expected values come from spec/95_test_vectors.md (ids in the comments) and the bytes
from the formats and map of spec/30_encoding.md; then one witness for every statement that has hypotheses. -/

namespace Sys2Proof.Tests

open Sys2Proof.Machine

/-- A state with the given register file and flags, the latch clear, and `bytes` loaded. -/
def st (a b c d e h l : Byte) (z n hf cf : Bool) (bytes : List Byte) : State where
  regs := { a := a, b := b, c := c, d := d, e := e, h := h, l := l, flags := { z := z, n := n, h := hf, c := cf } }
  faulted := false
  report := none
  program := bytes
  pc := 0

/-- A register and the byte F after one step. -/
def out (r : Reg8) (s : State) : Option (Byte × Byte) :=
  match step s with
  | .next t => some (t.reg r, t.f)
  | .fault _ | .refused _ => none

/-- A pair and the byte F after one step. -/
def outPair (s : State) : Option (Word × Byte) :=
  match step s with
  | .next t => some (t.pair .hl, t.f)
  | .fault _ | .refused _ => none

/-- The state after one step. -/
def next (s : State) : Option State :=
  match step s with
  | .next t => some t
  | .fault _ | .refused _ => none

/-! The decoder, every constructor, bytes from the formats of R66 and the maps of R69 and R70. -/

theorem test_decode_alu :
    decode [0b10000000] = .instr (.add .b) 1 ∧ decode [0b10001111] = .instr (.adc .a) 1 ∧
    decode [0b10010001] = .instr (.sub .c) 1 ∧ decode [0b10011011] = .instr (.sbc .e) 1 ∧
    decode [0b10100010] = .instr (.and .d) 1 ∧ decode [0b10101100] = .instr (.xor .h) 1 ∧
    decode [0b10110101] = .instr (.or .l) 1 ∧ decode [0b10111000] = .instr (.cp .b) 1 := by decide

theorem test_decode_incdec_addhl :
    decode [0b00000100] = .instr (.inc .b) 1 ∧ decode [0b00111100] = .instr (.inc .a) 1 ∧
    decode [0b00101101] = .instr (.dec .l) 1 ∧ decode [0b00100101] = .instr (.dec .h) 1 ∧
    decode [0b00001001] = .instr (.addhl .bc) 1 ∧ decode [0b00011001] = .instr (.addhl .de) 1 ∧
    decode [0b00101001] = .instr (.addhl .hl) 1 := by decide

theorem test_decode_acc :
    decode [0b00000111] = .instr .rlca 1 ∧ decode [0b00001111] = .instr .rrca 1 ∧
    decode [0b00010111] = .instr .rla 1 ∧ decode [0b00011111] = .instr .rra 1 ∧
    decode [0b00101111] = .instr .cpl 1 ∧ decode [0b00110111] = .instr .scf 1 ∧
    decode [0b00111111] = .instr .ccf 1 := by decide

theorem test_decode_cb :
    decode [0b11001011, 0b01100100] = .instr (.bit 4 .h) 2 ∧ decode [0b11001011, 0b10011001] = .instr (.reset 3 .c) 2 ∧
    decode [0b11001011, 0b11101010] = .instr (.set 5 .d) 2 := by decide

/-- DC1, DC12, DC15, DC18, DC22, DC25, DC36 to DC40, DC42, DC45, DC47, DC49. -/
theorem test_decode_verdicts :
    decode [0x00] = .notInCore 1 ∧ decode [0x27] = .notInCore 1 ∧ decode [0x34] = .notInCore 1 ∧
    decode [0x39] = .notInCore 1 ∧ decode [0x76] = .notInCore 1 ∧ decode [0x86] = .notInCore 1 ∧
    decode [0xFF] = .notInCore 1 ∧ decode [0xCB] = .truncated ∧ decode [0xCB, 0x00] = .notInCore 2 ∧
    decode [0xCB, 0x37] = .notInCore 2 ∧ decode [0xCB, 0x3F] = .notInCore 2 ∧ decode [0xCB, 0x46] = .notInCore 2 ∧
    decode [0xCB, 0xBE] = .notInCore 2 ∧ decode [0xCB, 0xFE] = .notInCore 2 ∧
    decode [0x3C, 0x3C] = .instr (.inc .a) 1 := by decide

/-- The encoder on bytes of R70's examples and section 4. -/
theorem test_encode :
    encode (.bit 7 .a) = [0xCB, 0x7F] ∧ encode (.reset 0 .a) = [0xCB, 0x87] ∧ encode (.set 0 .a) = [0xCB, 0xC7] ∧
    encode (.sbc .e) = [0x9B] ∧ encode (.dec .d) = [0x15] ∧ encode (.addhl .de) = [0x19] ∧ encode .ccf = [0x3F] := by
  decide

/-- Table rows by their `match` numbers (field codes zero: B, BC, bit 0); the second BIT row in the other numbering. -/
theorem test_decodeTableWord :
    decodeTableWord 8 0x88 = some (.adc .b) ∧ decodeTableWord 8 0x09 = some (.addhl .bc) ∧
    decodeTableWord 8 0x2F = some .cpl ∧ decodeTableWord 16 0xCB40 = some (.bit 0 .b) ∧
    decodeTableWord 16 0xCB80 = some (.reset 0 .b) ∧ decodeTableWord 16 0xCBC0 = some (.set 0 .b) ∧
    decodeTableWord 16 0x40CB = some (.bit 0 .b) := by decide

/-- The row's instruction runs as the first one after reset. -/
theorem test_withFetchWord :
    (next (State.reset.withFetchWord 16 0xCBC0)).map (fun t => (t.reg .b, t.pc)) = some (1, 2) ∧
    (next (State.reset.withFetchWord 8 0x2F)).map (fun t => (t.reg .a, t.pc)) = some (0xFF, 1) := by decide

/-! Well-formedness: an ill-formed term for each check, which the check refuses (FT5 to FT8). -/

theorem test_operand_refused :
    (PresentedInstr.reg .add .hl).operandLegal = false ∧ (PresentedInstr.reg .inc .f).operandLegal = false ∧
    (PresentedInstr.addhl .af).operandLegal = false ∧ (PresentedInstr.bitwise .set 3 .bc).operandLegal = false ∧
    (PresentedInstr.reg .add .hl).wellFormed = false := by decide

theorem test_bitIndex_refused :
    (PresentedInstr.bitwise .bit 8 .a).bitIndexLegal = false ∧ (PresentedInstr.bitwise .bit 8 .a).wellFormed = false ∧
    (PresentedInstr.bitwise .bit 7 .a).wellFormed = true := by decide

/-- FT5, FT6, FT7, and FT8 where the operand wins over the bit index. -/
theorem test_validate :
    validate (.reg .add .hl) = .error .operandOutOfSet ∧ validate (.addhl .af) = .error .operandOutOfSet ∧
    validate (.bitwise .bit 8 .a) = .error .bitIndexOutOfRange ∧
    validate (.bitwise .set 9 .hl) = .error .operandOutOfSet ∧ validate (.bitwise .set 7 .l) = .ok (.set 7 .l) :=
  ⟨rfl, rfl, rfl, rfl, rfl⟩

theorem test_reason_codes :
    FaultReason.notInCore.code = 1 ∧ FaultReason.truncated.code = 2 ∧ FaultReason.operandOutOfSet.code = 3 ∧
    FaultReason.bitIndexOutOfRange.code = 4 := by decide

/-! The flags codec and the views (CD2 to CD9). -/

theorem test_codec :
    Flags.pack { z := true, n := false, h := true, c := true } = 0xB0 ∧
    Flags.unpack 0xA5 = { z := true, n := false, h := true, c := false } ∧ (Flags.unpack 0xFF).pack = 0xF0 ∧
    Flags.unpack 0x1C = { z := false, n := false, h := false, c := true } := by decide

theorem test_views :
    (st 0x12 0xAB 0xCD 0 0 0 0 true false true true []).pair .af = 0x12B0 ∧
    (st 0x12 0xAB 0xCD 0 0 0 0 true false true true []).pair .bc = 0xABCD ∧
    ((State.reset.setPair .hl 0x0100).reg .h, (State.reset.setPair .hl 0x0100).reg .l) = (0x01, 0x00) ∧
    (State.reset.setPair .de 0xFFFF).pair .de = 0xFFFF := by decide

theorem test_accessors :
    (st 0x12 0xAB 0xCD 1 2 3 4 true false true true []).accessors =
      { a := 0x12, b := 0xAB, c := 0xCD, d := 1, e := 2, h := 3, l := 4, zero := true, subtract := false,
        halfCarry := true, carry := true, f := 0xB0, af := 0x12B0, bc := 0xABCD, de := 0x0102, hl := 0x0304,
        faulted := false } := by decide

/-! One step of each instruction; the vectors of section 4, at most two each. -/

/-- AR1, AR7. -/
theorem test_add :
    out .a (st 0x3C 0xC6 0 0 0 0 0 false false false false [0x80]) = some (0x02, 0x30) ∧
    out .a (st 0x88 0 0 0 0 0 0 false false false false [0x87]) = some (0x10, 0x30) := by decide

/-- AR9, AR11. -/
theorem test_adc :
    out .a (st 0x0E 1 0 0 0 0 0 false false false true [0x88]) = some (0x10, 0x20) ∧
    out .a (st 0x00 0 0xFF 0 0 0 0 false false false true [0x89]) = some (0x00, 0xB0) := by decide

/-- AR16, AR18. -/
theorem test_sub :
    out .a (st 0x00 1 0 0 0 0 0 false false false false [0x90]) = some (0xFF, 0x70) ∧
    out .a (st 0x3E 0 0 0x40 0 0 0 false false false false [0x92]) = some (0xFE, 0x50) := by decide

/-- AR22, AR25. -/
theorem test_sbc :
    out .a (st 0x00 0 0 0 0xFF 0 0 false false false true [0x9B]) = some (0x00, 0xF0) ∧
    out .a (st 0x10 0 0 0 0 0x0F 0 false false false true [0x9C]) = some (0x00, 0xE0) := by decide

/-- AR27, AR29. -/
theorem test_cp :
    out .a (st 0x3C 0x2F 0 0 0 0 0 false false false false [0xB8]) = some (0x3C, 0x60) ∧
    out .a (st 0x3C 0 0x40 0 0 0 0 false false false false [0xB9]) = some (0x3C, 0x50) := by decide

/-- AR31, AR33. -/
theorem test_inc :
    out .a (st 0xFF 0 0 0 0 0 0 false false false true [0x3C]) = some (0x00, 0xB0) ∧
    out .c (st 0 0 0x50 0 0 0 0 true true true true [0x0C]) = some (0x51, 0x10) := by decide

/-- AR35, AR36. -/
theorem test_dec :
    out .b (st 0 0 0 0 0 0 0 false false false false [0x05]) = some (0xFF, 0x60) ∧
    out .d (st 0 0 0 1 0 0 0 false false false true [0x15]) = some (0x00, 0xD0) := by decide

/-- WD1, WD5. -/
theorem test_addhl :
    outPair (st 0 0 0 6 5 0x8A 0x23 false false false false [0x19]) = some (0x9028, 0x20) ∧
    outPair (st 0 0 0 0 1 0x00 0xFF true false false true [0x19]) = some (0x0100, 0x00) := by decide

/-- LG2, LG4. -/
theorem test_and :
    out .a (st 0x5A 0xA5 0 0 0 0 0 false false false true [0xA0]) = some (0x00, 0xA0) ∧
    out .a (st 0xFF 0 0x0F 0 0 0 0 false true false true [0xA1]) = some (0x0F, 0x20) := by decide

/-- LG5, LG6. -/
theorem test_or :
    out .a (st 0x5A 0 0x0F 0 0 0 0 false false false false [0xB1]) = some (0x5F, 0x00) ∧
    out .a (st 0 0 0 0 0 0 0 false true true true [0xB2]) = some (0x00, 0x80) := by decide

/-- LG8, LG9. -/
theorem test_xor :
    out .a (st 0xFF 0 0 0 0x0F 0 0 false false false false [0xAB]) = some (0xF0, 0x00) ∧
    out .a (st 0x42 0 0 0 0 0 0 false false false true [0xAF]) = some (0x00, 0x80) := by decide

/-- LG12, LG13. -/
theorem test_cpl :
    out .a (st 0xFF 0 0 0 0 0 0 false false false true [0x2F]) = some (0x00, 0x70) ∧
    out .a (st 0x00 0 0 0 0 0 0 true false false false [0x2F]) = some (0xFF, 0xE0) := by decide

/-- CF1, CF2. -/
theorem test_ccf :
    out .a (st 0x12 0 0 0 0 0 0 true true true false [0x3F]) = some (0x12, 0x90) ∧
    out .a (st 0x12 0 0 0 0 0 0 false false false true [0x3F]) = some (0x12, 0x00) := by decide

/-- CF3, CF4. -/
theorem test_scf :
    out .a (st 0x12 0 0 0 0 0 0 false true true false [0x37]) = some (0x12, 0x10) ∧
    out .a (st 0x12 0 0 0 0 0 0 true false false true [0x37]) = some (0x12, 0x90) := by decide

/-- RT2, RT3. -/
theorem test_rla :
    out .a (st 0x95 0 0 0 0 0 0 false false false true [0x17]) = some (0x2B, 0x10) ∧
    out .a (st 0x00 0 0 0 0 0 0 true false false false [0x17]) = some (0x00, 0x00) := by decide

/-- RT6, RT7. -/
theorem test_rra :
    out .a (st 0x81 0 0 0 0 0 0 false false false false [0x1F]) = some (0x40, 0x10) ∧
    out .a (st 0x00 0 0 0 0 0 0 false false false true [0x1F]) = some (0x80, 0x00) := by decide

/-- RT8, RT9. -/
theorem test_rlca :
    out .a (st 0x85 0 0 0 0 0 0 false false false false [0x07]) = some (0x0B, 0x10) ∧
    out .a (st 0x3B 0 0 0 0 0 0 false false false true [0x07]) = some (0x76, 0x00) := by decide

/-- RT11, RT13. -/
theorem test_rrca :
    out .a (st 0x3B 0 0 0 0 0 0 false false false false [0x0F]) = some (0x9D, 0x10) ∧
    out .a (st 0x00 0 0 0 0 0 0 false false false true [0x0F]) = some (0x00, 0x00) := by decide

/-- BT2, BT4. -/
theorem test_bit :
    out .a (st 0x7F 0 0 0 0 0 0 false false false true [0xCB, 0x7F]) = some (0x7F, 0xB0) ∧
    out .h (st 0 0 0 0 0 0xEF 0 false false false false [0xCB, 0x64]) = some (0xEF, 0xA0) := by decide

/-- BT6, BT8. -/
theorem test_set :
    out .a (st 0 0 0 0 0 0 0 true false false true [0xCB, 0xC7]) = some (0x01, 0x90) ∧
    out .d (st 0 0 0 0 0 0 0 false true true false [0xCB, 0xEA]) = some (0x20, 0x60) := by decide

/-- BT10, BT11. -/
theorem test_reset :
    out .c (st 0 0 0 0 0 0 0 true false false false [0xCB, 0x99]) = some (0x00, 0x80) ∧
    out .d (st 0 0 0 0xFF 0 0 0 false true false true [0xCB, 0xBA]) = some (0x7F, 0x50) := by decide

/-! Faults, launch and the ends of a run (section 5, and P9). -/

/-- FT1: nothing but the latch and the report changes, and the next step is stuck. -/
theorem test_fault_notInCore :
    next (st 0x11 1 2 3 4 5 6 true false true false [0x86]) =
      some { st 0x11 1 2 3 4 5 6 true false true false [0x86] with
        faulted := true, report := some { reason := .notInCore, info := .bytes [0x86] } } := by decide

/-- FT2, FT3. -/
theorem test_fault_truncated_and_cb :
    (next (st 0 0 0 0 0 0 0 false false false false [0xCB])).bind State.report =
      some { reason := .truncated, info := .bytes [0xCB] } ∧
    (next (st 0 0 0 0 0 0 0 false false false false [0xCB, 0x36, 0x3C])).bind State.report =
      some { reason := .notInCore, info := .bytes [0xCB, 0x36] } := by decide

/-- FT4. -/
theorem test_stuck : step (State.reset.raiseFault { reason := .truncated, info := .bytes [0xCB] }) = .fault .stuck := rfl

/-- FT10. -/
theorem test_launch_clears :
    ((State.reset.raiseFault { reason := .truncated, info := .bytes [0xCB] }).launch Config.initState).faulted = false :=
  rfl

/-- P9, the empty program, and the reset state with nothing loaded. -/
theorem test_program_end : step State.reset = .refused .programEnd ∧ harnessRun [] Config.initState = some (.normal State.reset) :=
  ⟨rfl, rfl⟩

/-- No byte at all is outside the legal encodings (R75, log entry 4). -/
theorem test_no_bytes :
    execute (.bytes []) State.reset = .next (State.reset.raiseFault { reason := .notInCore, info := .bytes [] }) := rfl

/-- The spellings of R79 and its examples. -/
theorem test_spelling :
    (Instr.add .b).spelling = "ADD B" ∧ (Instr.addhl .de).spelling = "ADDHL DE" ∧
    (Instr.bit 7 .a).spelling = "BIT 7,A" ∧ (Instr.reset 0 .a).aliasSpelling = some "RES 0,A" := by decide

/-! Witnesses: for each statement with hypotheses, a state and operands that meet them all. -/

theorem witness_LegalEncodingsAreExactly248 : decode [0xCB, 0x40] = .instr (.bit 0 .b) 2 := by decide

theorem witness_LengthIsToldByFirstByte :
    decode [0xCB, 0xFF] = .instr (.set 7 .a) 2 ∧ decode [0x04] = .instr (.inc .b) 1 ∧
    ∀ (b : Fin 8) (r : Reg8), Instr.cpl ≠ .bit b r ∧ Instr.cpl ≠ .set b r ∧ Instr.cpl ≠ .reset b r := by
  refine ⟨by decide, by decide, fun b r => ⟨nofun, nofun, nofun⟩⟩

/-- No encoding is empty. -/
theorem encode_ne_nil (i : Instr) : encode i ≠ [] := by
  cases i <;> simp [encode]

/-- No encoding is a beginning of `86`, of `CB` alone, or of `CB 36`. -/
theorem no_encoding_begins (i : Instr) :
    ¬ encode i <+: [0x86#8] ∧ ¬ encode i <+: [0xCB#8] ∧ ¬ encode i <+: [0xCB#8, 0x36#8] := by
  have cb : ∀ (k : BitVec 2) (b : Fin 8) (r : Reg8), encodeCBByte k b r ≠ 0x36#8 := by
    intro k b r h
    have e := extractLsb_encodeCBByte k b r
    rw [h] at e
    cases r <;> revert e <;> decide
  cases i with
  | bit b r => simp [encode, cb]
  | reset b r => simp [encode, cb]
  | set b r => simp [encode, cb]
  | addhl rr => cases rr <;> decide
  | rlca => decide
  | rrca => decide
  | rla => decide
  | rra => decide
  | cpl => decide
  | scf => decide
  | ccf => decide
  | add r => cases r <;> decide
  | adc r => cases r <;> decide
  | sub r => cases r <;> decide
  | sbc r => cases r <;> decide
  | and r => cases r <;> decide
  | xor r => cases r <;> decide
  | or r => cases r <;> decide
  | cp r => cases r <;> decide
  | inc r => cases r <;> decide
  | dec r => cases r <;> decide

theorem witness_IllegalBytesTakeTheFault :
    State.reset.faulted = false ∧ (∀ i : Instr, ¬ encode i <+: []) ∧ (∀ i : Instr, ¬ encode i <+: [0x86#8]) ∧
    (∀ i : Instr, ¬ encode i <+: [0xCB#8]) ∧ ∀ i : Instr, ¬ encode i <+: [0xCB#8, 0x36#8] :=
  ⟨rfl, fun i h => encode_ne_nil i (List.prefix_nil.1 h), fun i => (no_encoding_begins i).1,
    fun i => (no_encoding_begins i).2.1, fun i => (no_encoding_begins i).2.2⟩

theorem witness_PresentedValuesAreChecked :
    State.reset.faulted = false ∧ (PresentedInstr.bitwise .set 9 .hl).operandLegal = false ∧
    (PresentedInstr.bitwise .bit 8 .a).operandLegal = true ∧ (PresentedInstr.bitwise .bit 8 .a).bitIndexLegal = false ∧
    (PresentedInstr.bitwise .bit 7 .a).wellFormed = true := by decide

theorem witness_StepRunsDecodedInstruction :
    (State.reset.load [0x3C, 0xCB, 0x7F]).faulted = false ∧
    decode ((State.reset.load [0x3C, 0xCB, 0x7F]).program.drop (State.reset.load [0x3C, 0xCB, 0x7F]).pc) =
      .instr (.inc .a) 1 := by decide

theorem witness_StepTakesTheFaultInPlace :
    (State.reset.load [0xCB]).faulted = false ∧ (State.reset.load [0xCB]).pc ≠ (State.reset.load [0xCB]).program.length ∧
    (State.reset.load [0xCB]).program.drop (State.reset.load [0xCB]).pc = [0xCB#8] ∧
    ∀ i : Instr, ¬ encode i <+: [0xCB#8] :=
  ⟨rfl, by decide, rfl, fun i => (no_encoding_begins i).2.1⟩

theorem witness_StepEndsOnlyAtProgramEnd :
    (State.reset.load [0x3C]).faulted = false ∧
    (State.reset.load [0x3C]).pc ≠ (State.reset.load [0x3C]).program.length := by decide

theorem witness_FaultedCoreIsStuck :
    (State.reset.raiseFault { reason := .truncated, info := .bytes [0xCB] }).faulted = true := rfl

theorem witness_StepKeepsInvariant :
    (State.reset.load [0x86]).Inv ∧
    step (State.reset.load [0x86]) =
      .next ((State.reset.load [0x86]).raiseFault { reason := .notInCore, info := .bytes [0x86] }) :=
  ⟨⟨by decide, fun _ => rfl, nofun⟩, rfl⟩

theorem witness_ResultsDependOnNamedInputsOnly :
    (∀ q ∈ readRegs (.adc .b), (st 1 2 3 4 5 6 7 true true true true []).reg q =
      (st 1 2 0 0 0 0 0 false false false true []).reg q) ∧
    readsCarry (.adc .b) = true ∧
    (st 1 2 3 4 5 6 7 true true true true []).flags.c = (st 1 2 0 0 0 0 0 false false false true []).flags.c := by
  decide

theorem witness_CpSetsFlagsOnly : ∃ u : State, exec (.sub .b) State.reset = .next u := ⟨_, rfl⟩

theorem witness_RegisterPairsAreViews :
    (Pair.hl, Reg8.h, Reg8.l) ∈
      [(Pair.bc, Reg8.b, Reg8.c), (Pair.de, Reg8.d, Reg8.e), (Pair.hl, Reg8.h, Reg8.l)] := by decide

theorem witness_FaultIsPrecise : [0xCB#8, 0x36#8] ≠ [] ∧ ∀ i : Instr, ¬ encode i <+: [0xCB#8, 0x36#8] :=
  ⟨by decide, fun i => (no_encoding_begins i).2.2⟩

end Sys2Proof.Tests
end

