-- ==== Sys2Proof/Proofs/StateViews.lean ====
section
/-! The flags codec (10_state.md R27 to R29), the pairs BC, DE and HL as views of two registers (R30, R33), and the views AF
and F of A and the flags (R31, R32). -/

namespace Sys2Proof.Machine

/-- The packed byte as the sum of its four bits' weights (R27). -/
theorem Flags.pack_toNat (f : Flags) :
    f.pack.toNat = 128 * f.z.toNat + 64 * f.n.toNat + 32 * f.h.toNat + 16 * f.c.toNat := by
  obtain ⟨z, n, h, c⟩ := f
  cases z <;> cases n <;> cases h <;> cases c <;> rfl

theorem Flags.pack_toNat_mod_16 (f : Flags) : f.pack.toNat % 16 = 0 := by
  rw [f.pack_toNat]
  omega

/-- Bits 3 to 0 of a packed byte are 0 (R27). -/
theorem Flags.getLsbD_pack_low (f : Flags) {j : Nat} (hj : j < 4) : f.pack.getLsbD j = false := by
  have hlow : f.pack.toNat % 2 ^ 4 = 0 := f.pack_toNat_mod_16
  have hbit : (f.pack.toNat % 2 ^ 4).testBit j = f.pack.getLsbD j := by
    rw [Nat.testBit_mod_two_pow, decide_eq_true hj, Bool.true_and, BitVec.testBit_toNat]
  rw [← hbit, hlow, Nat.zero_testBit]

/-- Packing what was unpacked loses the low nibble and nothing else (R29): bits 7 to 4 are the flags read from them, and
the mask clears the rest, which packing leaves 0. -/
theorem Flags.pack_unpack (v : Byte) : (Flags.unpack v).pack = v &&& 0xF0#8 := by
  obtain ⟨h7, h6, h5, h4, -⟩ := (Flags.unpack v).pack_bits
  apply BitVec.eq_of_getLsbD_eq
  intro j hj
  by_cases hlow : j < 4
  · rw [Flags.getLsbD_pack_low _ hlow]
    interval_cases j <;> simp
  · interval_cases j
    · exact h4.trans (by simp [Flags.unpack])
    · exact h5.trans (by simp [Flags.unpack])
    · exact h6.trans (by simp [Flags.unpack])
    · exact h7.trans (by simp [Flags.unpack])

/-- Settles O40: the bit weights, and the two round trips of the codec. -/
theorem flagsCodecLaws : Obligations.FlagsCodecLaws :=
  ⟨fun f => ⟨f.unpack_pack, f.pack_toNat⟩, fun v => ⟨Flags.pack_unpack v, rfl⟩⟩

/-- A write of a pair touches the register file only. -/
theorem RestKept.setPair (s : State) (p : Pair) (v : Word) : RestKept s (s.setPair p v) :=
  ⟨s.faulted_setPair p v, s.report_setPair p v, s.program_setPair p v, s.pc_setPair p v⟩

/-- The pairs that are views of two registers, each with its high and its low register (R30). -/
def registerPairs : List (Pair × Reg8 × Reg8) :=
  [(.bc, .b, .c), (.de, .d, .e), (.hl, .h, .l)]

/-- Such a pair joins two different registers, and a write of it is the two half writes (R30, R33). -/
theorem registerPairs_halves {p : Pair} {hi lo : Reg8} (hp : (p, hi, lo) ∈ registerPairs) :
    hi ≠ lo ∧ (∀ s : State, s.pair p = joinBytes (s.reg hi) (s.reg lo)) ∧
      ∀ (s : State) (v : Word), s.setPair p v = (s.setReg hi (highByte v)).setReg lo (lowByte v) := by
  simp only [registerPairs, List.mem_cons, Prod.mk.injEq, List.not_mem_nil, or_false] at hp
  obtain ⟨rfl, rfl, rfl⟩ | ⟨rfl, rfl, rfl⟩ | ⟨rfl, rfl, rfl⟩ := hp
  · exact ⟨by decide, fun _ => rfl, fun _ _ => rfl⟩
  · exact ⟨by decide, fun _ => rfl, fun _ _ => rfl⟩
  · exact ⟨by decide, fun _ => rfl, fun _ _ => rfl⟩

section
variable {p : Pair} {hi lo : Reg8} (hp : (p, hi, lo) ∈ registerPairs) (s : State) (v : Word)
include hp

theorem State.pair_toNat : (s.pair p).toNat = (s.reg hi).toNat * 256 + (s.reg lo).toNat := by
  rw [(registerPairs_halves hp).2.1 s, joinBytes_toNat]

/-- The high register, the low register and the others after a write of a pair (R33). -/
theorem State.reg_setPair (q : Reg8) :
    (s.setPair p v).reg q = if q = lo then lowByte v else if q = hi then highByte v else s.reg q := by
  obtain ⟨-, -, hset⟩ := registerPairs_halves hp
  rw [hset, State.reg_setReg, State.reg_setReg]

theorem State.reg_setPair_high : (s.setPair p v).reg hi = highByte v := by
  obtain ⟨hne, -, -⟩ := registerPairs_halves hp
  rw [State.reg_setPair hp, if_neg hne, if_pos rfl]

theorem State.reg_setPair_low : (s.setPair p v).reg lo = lowByte v := by
  rw [State.reg_setPair hp, if_pos rfl]

theorem State.pair_setPair : (s.setPair p v).pair p = v := by
  obtain ⟨-, hpair, -⟩ := registerPairs_halves hp
  rw [hpair, State.reg_setPair_high hp, State.reg_setPair_low hp, joinBytes_high_low]

theorem RegsKeptBut.setPair : RegsKeptBut [hi, lo] s (s.setPair p v) := by
  intro q hq
  simp only [List.mem_cons, List.not_mem_nil, or_false, not_or] at hq
  rw [State.reg_setPair hp, if_neg hq.2, if_neg hq.1]

theorem State.flags_setPair : (s.setPair p v).flags = s.flags := by
  obtain ⟨-, -, hset⟩ := registerPairs_halves hp
  rw [hset, State.flags_setReg, State.flags_setReg]

end

/-- Settles O41: a pair is the two registers joined, and its write the two half writes. -/
theorem registerPairsAreViews : Obligations.RegisterPairsAreViews := by
  intro s v p hi lo (hp : (p, hi, lo) ∈ registerPairs)
  refine ⟨State.pair_toNat hp s, State.pair_setPair hp s v, ?_, ?_, RegsKeptBut.setPair hp s v,
    State.flags_setPair hp s v, RestKept.setPair s p v⟩
  · rw [State.reg_setPair_high hp, highByte_toNat]
  · rw [State.reg_setPair_low hp, lowByte_toNat]

theorem lowByte_eq_ofNat (v : Word) : lowByte v = BitVec.ofNat 8 v.toNat := by
  apply BitVec.eq_of_toNat_eq
  rw [lowByte_toNat, BitVec.toNat_ofNat]

theorem joinBytes_and (hi lo hi' lo' : Byte) :
    joinBytes hi lo &&& joinBytes hi' lo' = joinBytes (hi &&& hi') (lo &&& lo') :=
  BitVec.and_append

theorem State.reg_a_setPair_af (s : State) (v : Word) : (s.setPair .af v).reg .a = highByte v := by
  simp [State.setPair]

theorem State.flags_setPair_af (s : State) (v : Word) : (s.setPair .af v).flags = Flags.unpack (lowByte v) := rfl

theorem RegsKeptBut.setF (s : State) (w : Byte) : RegsKeptBut [] s (s.setF w) :=
  fun q _ => s.reg_setF w q

theorem RestKept.setF (s : State) (w : Byte) : RestKept s (s.setF w) :=
  ⟨s.faulted_setF w, s.report_setF w, s.program_setF w, s.pc_setF w⟩

theorem RegsKeptBut.setPair_af (s : State) (v : Word) : RegsKeptBut [.a] s (s.setPair .af v) := by
  intro q hq
  have hqa : q ≠ .a := by simpa using hq
  simp [State.setPair, hqa]

theorem State.pair_af_toNat (s : State) :
    (s.pair .af).toNat = (s.reg .a).toNat * 256 + s.flags.pack.toNat :=
  joinBytes_toNat (s.reg .a) s.f

/-- The low nibble of AF reads 0 (R31): 256 times A has none, and the packed flags have none either. -/
theorem State.pair_af_mod_16 (s : State) : (s.pair .af).toNat % 16 = 0 := by
  have hpack := s.flags.pack_toNat_mod_16
  rw [s.pair_af_toNat]
  omega

/-- AF reads back a written value with its low nibble cleared (R31): the codec masks the low byte. -/
theorem State.pair_setPair_af (s : State) (v : Word) : (s.setPair .af v).pair .af = v &&& 0xFFF0#16 :=
  calc (s.setPair .af v).pair .af
    _ = joinBytes (highByte v) (Flags.unpack (lowByte v)).pack :=
        congrArg (joinBytes · (Flags.unpack (lowByte v)).pack) (s.reg_a_setPair_af v)
    _ = joinBytes (highByte v &&& 0xFF#8) (lowByte v &&& 0xF0#8) := by
        rw [Flags.pack_unpack, show 0xFF#8 = BitVec.allOnes 8 from rfl, BitVec.and_allOnes]
    _ = joinBytes (highByte v) (lowByte v) &&& joinBytes 0xFF#8 0xF0#8 := (joinBytes_and _ _ _ _).symm
    _ = v &&& 0xFFF0#16 := by rw [joinBytes_high_low]; rfl

/-- Settles O42: AF joins A and the packed flags, and its write goes through the flags codec. -/
theorem afViewDropsLowNibble : Obligations.AfViewDropsLowNibble := by
  intro s v w
  refine ⟨s.pair_af_toNat, s.pair_af_mod_16, ?_, ?_, s.pair_setPair_af v, RegsKeptBut.setPair_af s v,
    RestKept.setPair s .af v, rfl, s.flags_setF w, RegsKeptBut.setF s w, RestKept.setF s w⟩
  · rw [s.reg_a_setPair_af, highByte_toNat]
  · rw [s.flags_setPair_af, lowByte_eq_ofNat]

end Sys2Proof.Machine
end

