-- ==== Sys2Proof/Proofs/Encoding.lean ====
section
/-! Decoding and encoding are inverse (30_encoding.md R71): a byte is its fields side by side (R66), so the decoder
answers an instruction on the bytes that begin with its encoding and on no others. -/

namespace Sys2Proof

/-- The three fields of F_ALU, F_ACC and F_CB (R66), read back from the byte they make up. -/
theorem extractLsb_fields (k : BitVec 2) (o c : BitVec 3) :
    (k ++ o ++ c : Byte).extractLsb 7 6 = k ∧ (k ++ o ++ c : Byte).extractLsb 5 3 = o ∧
      (k ++ o ++ c : Byte).extractLsb 2 0 = c := by
  refine ⟨?_, ?_, BitVec.extractLsb'_append_eq_right⟩
  · exact (BitVec.extractLsb'_append_eq_of_le (by decide)).trans BitVec.extractLsb'_append_eq_left
  · exact (BitVec.extractLsb'_append_eq_of_le (by decide)).trans BitVec.extractLsb'_append_eq_right

/-- Three neighbouring fields, side by side, are the field they cover. -/
theorem append_three_fields (v : Byte) (s n m l : Nat) :
    v.extractLsb' (s + n + m) l ++ v.extractLsb' (s + n) m ++ v.extractLsb' s n = v.extractLsb' s (l + m + n) := by
  rw [BitVec.extractLsb'_append_extractLsb'_eq_extractLsb' rfl,
    BitVec.extractLsb'_append_extractLsb'_eq_extractLsb' rfl]

/-- A byte is its fields in F_ALU, F_ACC and F_CB side by side (R66). -/
theorem append_fields (v : Byte) : v.extractLsb 7 6 ++ v.extractLsb 5 3 ++ v.extractLsb 2 0 = v :=
  (append_three_fields v 0 3 3 2).trans BitVec.extractLsb'_eq_self

/-- A byte is its fields in F_ADDHL side by side (R66). -/
theorem append_addHl_fields (v : Byte) : v.extractLsb 7 6 ++ v.extractLsb 5 4 ++ v.extractLsb 3 0 = v :=
  (append_three_fields v 0 4 2 2).trans BitVec.extractLsb'_eq_self

/-- A byte is its fields in F_INCDEC side by side (R66). -/
theorem append_incDec_fields (v : Byte) :
    v.extractLsb 7 6 ++ v.extractLsb 5 3 ++ v.extractLsb 2 1 ++ v.extractLsb 0 0 = v :=
  calc v.extractLsb 7 6 ++ v.extractLsb 5 3 ++ v.extractLsb 2 1 ++ v.extractLsb 0 0
    _ = v.extractLsb' 1 7 ++ v.extractLsb 0 0 := congrArg (· ++ v.extractLsb 0 0) (append_three_fields v 1 2 3 2)
    _ = v := BitVec.extractLsb'_append_extractLsb' (w := 7) (len := 1)

/-- The only code that names an r8 target is the one written for it (R62). -/
theorem eq_code_of_reg8OfCode {c : BitVec 3} {r : Reg8} (h : reg8OfCode c = some r) : c = r.code := by
  revert c
  cases r <;> decide

/-- The only code that names an r16 target is the one written for it (R63). -/
theorem eq_code_of_reg16OfCode {c : BitVec 2} {rr : Reg16} (h : reg16OfCode c = some rr) : c = rr.code := by
  revert c
  cases rr <;> decide

theorem encode_aluInstr (o : BitVec 3) (r : Reg8) : encode (aluInstr o r) = [encodeAlu o r] := by
  revert o
  cases r <;> decide

theorem encode_accInstr {o : BitVec 3} {i : Instr} (h : accInstr o = some i) : encode i = [encodeAcc o] := by
  have hall : ∀ o : BitVec 3, ∀ i ∈ accInstr o, encode i = [encodeAcc o] := by decide
  exact hall o i h

theorem encode_cbInstr {k : BitVec 2} {b : Fin 8} {r : Reg8} {i : Instr} (h : cbInstr k b r = some i) :
    encode i = [0xCB#8, encodeCBByte k b r] := by
  have hk : ∀ k : BitVec 2, k = 0b00#2 ∨ k = 0b01#2 ∨ k = 0b10#2 ∨ k = 0b11#2 := by decide
  obtain rfl | rfl | rfl | rfl := hk k
  · cases h
  · cases h
    rfl
  · cases h
    rfl
  · cases h
    rfl

theorem instrOfByte_encodeAlu (o : BitVec 3) (r : Reg8) : instrOfByte (encodeAlu o r) = some (aluInstr o r) := by
  obtain ⟨hk, ho, hc⟩ := extractLsb_fields 0b10#2 o r.code
  simp [instrOfByte, encodeAlu, hk, ho, hc]

theorem instrOfCBByte_encodeCBByte (k : BitVec 2) (b : Fin 8) (r : Reg8) :
    instrOfCBByte (encodeCBByte k b r) = cbInstr k b r := by
  obtain ⟨hk, hb, hr⟩ := extractLsb_fields k (BitVec.ofFin b) r.code
  simp [instrOfCBByte, encodeCBByte, hk, hb, hr]

theorem encodeIncDec_of_fields {v : Byte} {r : Reg8} {d : BitVec 1} (hk : v.extractLsb 7 6 = 0b00#2)
    (hr : reg8OfCode (v.extractLsb 5 3) = some r) (hm : v.extractLsb 2 1 = 0b10#2) (hd : v.extractLsb 0 0 = d) :
    encodeIncDec r d = v := by
  rw [encodeIncDec, ← hk, ← eq_code_of_reg8OfCode hr, ← hm, ← hd, append_incDec_fields]

/-- A one-byte form is the encoding of its instruction (R69), format by format. -/
theorem encode_of_instrOfByte {b0 : Byte} {i : Instr} (h : instrOfByte b0 = some i) : encode i = [b0] := by
  unfold instrOfByte at h
  split_ifs at h with halu hincDec hd haddHl hacc
  · obtain ⟨r, hr, rfl⟩ := Option.map_eq_some_iff.1 h
    rw [encode_aluInstr, encodeAlu, ← halu, ← eq_code_of_reg8OfCode hr, append_fields]
  · obtain ⟨hk, hm⟩ := hincDec
    obtain ⟨r, hr, rfl⟩ := Option.map_eq_some_iff.1 h
    exact congrArg (fun v => [v]) (encodeIncDec_of_fields hk hr hm hd)
  · obtain ⟨hk, hm⟩ := hincDec
    obtain ⟨r, hr, rfl⟩ := Option.map_eq_some_iff.1 h
    have hd1 := (BitVec.eq_zero_or_eq_one (b0.extractLsb 0 0)).resolve_left hd
    exact congrArg (fun v => [v]) (encodeIncDec_of_fields hk hr hm hd1)
  · obtain ⟨hk, hm⟩ := haddHl
    obtain ⟨rr, hr, rfl⟩ := Option.map_eq_some_iff.1 h
    rw [encode, encodeAddHl, ← hk, ← eq_code_of_reg16OfCode hr, ← hm, append_addHl_fields]
  · obtain ⟨hk, hm⟩ := hacc
    rw [encode_accInstr h, encodeAcc, ← hk, ← hm, append_fields]

/-- A two-byte form is the encoding of its instruction (R70). -/
theorem encode_of_instrOfCBByte {b1 : Byte} {i : Instr} (h : instrOfCBByte b1 = some i) : encode i = [0xCB#8, b1] := by
  obtain ⟨r, hr, hi⟩ := Option.bind_eq_some_iff.1 h
  rw [encode_cbInstr hi, encodeCBByte, ← eq_code_of_reg8OfCode hr]
  exact congrArg (fun v => [0xCB#8, v]) (append_fields b1)

/-- A CB form with a legal kind and any operands decodes from its two bytes (R66, R70). -/
theorem decode_cb_form {k : BitVec 2} {b : Fin 8} {r : Reg8} {i : Instr} (h : cbInstr k b r = some i) :
    decode [0xCB#8, encodeCBByte k b r] = .instr i 2 := by
  simp [decode, instrOfCBByte_encodeCBByte, h, Decoded.ofOption]

theorem decode_encodeAlu (o : BitVec 3) (r : Reg8) : decode [encodeAlu o r] = .instr (aluInstr o r) 1 := by
  have hne : encodeAlu o r ≠ 0xCB#8 := by
    revert o
    cases r <;> decide
  simp [decode, instrOfByte_encodeAlu, hne, Decoded.ofOption]

/-- Each instruction decodes from its encoding (R71), format by format: the ALU and CB forms for every field value, the
others on the bytes themselves. -/
theorem decode_encode (i : Instr) : decode (encode i) = .instr i (encode i).length := by
  cases i with
  | add r => exact decode_encodeAlu 0b000 r
  | adc r => exact decode_encodeAlu 0b001 r
  | sub r => exact decode_encodeAlu 0b010 r
  | sbc r => exact decode_encodeAlu 0b011 r
  | and r => exact decode_encodeAlu 0b100 r
  | xor r => exact decode_encodeAlu 0b101 r
  | or r => exact decode_encodeAlu 0b110 r
  | cp r => exact decode_encodeAlu 0b111 r
  | inc r => cases r <;> rfl
  | dec r => cases r <;> rfl
  | addhl rr => cases rr <;> rfl
  | bit b r => exact decode_cb_form rfl
  | reset b r => exact decode_cb_form rfl
  | set b r => exact decode_cb_form rfl
  | rlca | rrca | rla | rra | cpl | scf | ccf => rfl

/-- The decoder reads an instruction from exactly the bytes that begin with its encoding, and answers the encoding's
length (R71, R72). -/
theorem decode_eq_instr_iff {bs : List Byte} {i : Instr} {n : Nat} :
    decode bs = .instr i n ↔ n = (encode i).length ∧ encode i <+: bs := by
  constructor
  · intro h
    obtain ⟨-, e⟩ | ⟨-, e⟩ | ⟨b1, rest, rfl, e⟩ | ⟨b0, rest, -, rfl, e⟩ := decode_cases bs
    · cases e.symm.trans h
    · cases e.symm.trans h
    · obtain ⟨hi, rfl⟩ := ofOption_eq_instr (e.symm.trans h)
      rw [encode_of_instrOfCBByte hi]
      exact ⟨rfl, rest, rfl⟩
    · obtain ⟨hi, rfl⟩ := ofOption_eq_instr (e.symm.trans h)
      rw [encode_of_instrOfByte hi]
      exact ⟨rfl, rest, rfl⟩
  · rintro ⟨rfl, more, rfl⟩
    exact decode_append (decode_encode i) more

/-- Settles O23: the decoder evaluated at every byte gives the two counts, and an instruction is read from exactly the
bytes that begin with its encoding. -/
theorem legalEncodingsAreExactly248 : Obligations.LegalEncodingsAreExactly248 := by
  refine ⟨rfl, rfl, fun bs i n h => ?_, fun i bs => ⟨fun h => ?_, fun h => ?_⟩⟩
  · obtain ⟨rfl, hbegins⟩ := decode_eq_instr_iff.1 h
    obtain ⟨more, rfl⟩ := hbegins
    exact ⟨rfl, List.take_left⟩
  · obtain ⟨hlen, hbegins⟩ := decode_eq_instr_iff.1 h
    exact (hbegins.eq_of_length hlen.symm).symm
  · subst h
    exact decode_encode i

/-- Settles O24: the first byte picks the form, and the form gives the length. -/
theorem lengthIsToldByFirstByte : Obligations.LengthIsToldByFirstByte := by
  refine ⟨fun b0 more i n h => ?_, fun b r => ⟨⟨_, rfl⟩, ⟨_, rfl⟩, ⟨_, rfl⟩⟩, fun i h => ?_⟩
  · obtain ⟨hnil, -⟩ | ⟨-, e⟩ | ⟨b1, rest, hbs, e⟩ | ⟨b, rest, hb, hbs, e⟩ := decode_cases (b0 :: more)
    · cases hnil
    · cases e.symm.trans h
    · obtain ⟨rfl, -⟩ := List.cons.inj hbs
      obtain ⟨-, hn⟩ := ofOption_eq_instr (e.symm.trans h)
      rw [hn, if_pos rfl]
    · obtain ⟨rfl, -⟩ := List.cons.inj hbs
      obtain ⟨-, hn⟩ := ofOption_eq_instr (e.symm.trans h)
      rw [hn, if_neg hb]
  · cases i with
    | bit b r =>
      obtain ⟨hbit, -, -⟩ := h b r
      exact absurd rfl hbit
    | set b r =>
      obtain ⟨-, hset, -⟩ := h b r
      exact absurd rfl hset
    | reset b r =>
      obtain ⟨-, -, hreset⟩ := h b r
      exact absurd rfl hreset
    | _ => rfl

end Sys2Proof
end

