-- ==== Sys2Proof/Proofs/Arith8.lean ====
section
/-! The 8-bit arithmetic of 40_arith8.md (R102 to R108). Each instruction writes back what one adder or subtractor
answers (R100, R101), so each proof below is that unit's law for the operands the instruction gives it, with the
writeback's frame and the instruction's encoding. -/

namespace Sys2Proof

/-- An instruction of one byte is decoded from that byte, whatever follows (R72). -/
theorem decode_cons_of_encode {i : Instr} {v : Byte} (h : encode i = [v]) (more : List Byte) :
    decode (v :: more) = .instr i 1 := by
  rw [decode_eq_instr_iff, h]
  exact ⟨rfl, more, rfl⟩

/-- An instruction of the form F_INCDEC is decoded from that form, its fixed bits and `d` taken as one field (R66). -/
theorem decode_cons_incDec_form {i : Instr} {r : Reg8} {d : BitVec 1} (h : encode i = [encodeIncDec r d])
    (more : List Byte) : decode ((0b00#2 ++ r.code ++ (0b10#2 ++ d : BitVec 3) : Byte) :: more) = .instr i 1 := by
  have hfield : encodeIncDec r d = 0b00#2 ++ r.code ++ (0b10#2 ++ d : BitVec 3) := BitVec.append_assoc
  exact decode_cons_of_encode (hfield ▸ h) more

end Sys2Proof

namespace Sys2Proof.Machine

/-- The writeback touches its destination and no other register (R78). -/
theorem RegsKeptBut.writeback (s : State) (dest : Reg8) (v : Byte) (f : Flags) :
    RegsKeptBut [dest] s (s.writeback dest v f) := by
  intro q hq
  exact s.reg_writeback_ne v f (by simpa using hq)

theorem RegsKeptBut.setFlags (s : State) (f : Flags) : RegsKeptBut [] s (s.setFlags f) :=
  fun q _ => s.reg_setFlags f q

/-- The adder without a carry-in (R102). -/
theorem add8_false_spec (p q : Byte) :
    (add8 p q false).res.toNat = (p.toNat + q.toNat) % 256 ∧
      ((add8 p q false).z = true ↔ (p.toNat + q.toNat) % 256 = 0) ∧
      ((add8 p q false).h = true ↔ p.toNat % 16 + q.toNat % 16 > 15) ∧
      ((add8 p q false).c = true ↔ p.toNat + q.toNat > 255) :=
  add8_spec p q false

/-- The subtractor without a borrow-in (R104). -/
theorem sub8_false_spec (p q : Byte) :
    ((sub8 p q false).res.toNat : Int) = ((p.toNat : Int) - q.toNat) % 256 ∧
      ((sub8 p q false).z = true ↔ ((p.toNat : Int) - q.toNat) % 256 = 0) ∧
      ((sub8 p q false).h = true ↔ p.toNat % 16 < q.toNat % 16) ∧
      ((sub8 p q false).c = true ↔ p.toNat < q.toNat) := by
  simpa only [Bool.toNat_false, Nat.cast_zero, sub_zero, add_zero] using sub8_spec p q false

theorem add8_z_iff (p q : Byte) (cin : Bool) : (add8 p q cin).z = true ↔ (add8 p q cin).res.toNat = 0 :=
  isZero_iff _

theorem sub8_z_iff (p q : Byte) (cin : Bool) : (sub8 p q cin).z = true ↔ (sub8 p q cin).res.toNat = 0 :=
  isZero_iff _

/-- A difference of two bytes is 0 modulo 256 only if they are equal (R106). -/
theorem sub8_false_z_iff_eq (p q : Byte) : (sub8 p q false).z = true ↔ p = q := by
  obtain ⟨-, hz, -, -⟩ := sub8_false_spec p q
  have hp := p.isLt
  have hq := q.isLt
  rw [hz, ← BitVec.toNat_inj]
  omega

/-- One more wraps at 256 and carries out of bit 3 only from the low nibble 15 (R107). -/
theorem add8_one_spec (v : Byte) :
    (add8 v 1 false).res.toNat = (v.toNat + 1) % 256 ∧ ((add8 v 1 false).h = true ↔ v.toNat % 16 = 15) := by
  have hone : (1 : Byte).toNat = 1 := rfl
  obtain ⟨hres, -, hh, -⟩ := add8_false_spec v 1
  rw [hone] at hres hh
  exact ⟨hres, hh.trans (by omega)⟩

/-- One less wraps below 0 and borrows from bit 4 only at the low nibble 0 (R108). -/
theorem sub8_one_spec (v : Byte) :
    ((sub8 v 1 false).res.toNat : Int) = ((v.toNat : Int) - 1) % 256 ∧
      ((sub8 v 1 false).h = true ↔ v.toNat % 16 = 0) := by
  have hone : (1 : Byte).toNat = 1 := rfl
  obtain ⟨hres, -, hh, -⟩ := sub8_false_spec v 1
  rw [hone] at hres hh
  exact ⟨hres, hh.trans (by omega)⟩

/-- Settles O1: the adder on A and r without a carry-in, written back to A. -/
theorem addSumsIntoAccumulator : Obligations.AddSumsIntoAccumulator := by
  intro r s
  obtain ⟨hres, hz, hh, hc⟩ := add8_false_spec (s.reg .a) (s.reg r)
  refine ⟨_, rfl, ?_, hz, rfl, hh, hc, RegsKeptBut.writeback s .a _ _, exec_next (i := .add r) rfl,
    decode_cons_of_encode rfl⟩
  rw [State.reg_writeback_same, hres]

/-- Settles O2: the adder on A and r with the carry flag as its carry-in, written back to A. -/
theorem adcAddsWithCarryIn : Obligations.AdcAddsWithCarryIn := by
  intro r s
  obtain ⟨hres, hz, hh, hc⟩ := add8_spec (s.reg .a) (s.reg r) s.flags.c
  refine ⟨_, rfl, ?_, hz, rfl, hh, hc, RegsKeptBut.writeback s .a _ _, exec_next (i := .adc r) rfl,
    decode_cons_of_encode rfl⟩
  rw [State.reg_writeback_same, hres]

/-- Settles O3: the subtractor on A and r without a borrow-in, written back to A. -/
theorem subSubtractsFromAccumulator : Obligations.SubSubtractsFromAccumulator := by
  intro r s
  obtain ⟨hres, hz, hh, hc⟩ := sub8_false_spec (s.reg .a) (s.reg r)
  refine ⟨_, rfl, ?_, hz, rfl, hh, hc, RegsKeptBut.writeback s .a _ _, exec_next (i := .sub r) rfl,
    decode_cons_of_encode rfl⟩
  rw [State.reg_writeback_same, hres]

/-- Settles O4: the subtractor on A and r with the carry flag as its borrow-in, written back to A. -/
theorem sbcSubtractsWithBorrowIn : Obligations.SbcSubtractsWithBorrowIn := by
  intro r s
  obtain ⟨hres, hz, hh, hc⟩ := sub8_spec (s.reg .a) (s.reg r) s.flags.c
  refine ⟨_, rfl, ?_, hz, rfl, hh, hc, RegsKeptBut.writeback s .a _ _, exec_next (i := .sbc r) rfl,
    decode_cons_of_encode rfl⟩
  rw [State.reg_writeback_same, hres]

/-- Settles O5: the subtractor's flags for A and r, those SUB leaves, and no register written. -/
theorem cpSetsFlagsOnly : Obligations.CpSetsFlagsOnly := by
  intro r s
  obtain ⟨-, -, hh, hc⟩ := sub8_false_spec (s.reg .a) (s.reg r)
  refine ⟨_, rfl, sub8_false_z_iff_eq (s.reg .a) (s.reg r), rfl, hh, hc, ?_, RegsKeptBut.setFlags s _,
    exec_next (i := .cp r) rfl, decode_cons_of_encode rfl⟩
  intro u hsub
  cases hsub
  rfl

/-- Settles O6: the adder on r and 1, written back to r with the old carry. -/
theorem incWrapsAndKeepsCarry : Obligations.IncWrapsAndKeepsCarry := by
  intro r s
  obtain ⟨hres, hh⟩ := add8_one_spec (s.reg r)
  refine ⟨_, rfl, ?_, ?_, rfl, hh, rfl, rfl, rfl, RegsKeptBut.writeback s r _ _,
    exec_next (i := .inc r) rfl, decode_cons_incDec_form (d := 0) rfl⟩
  · rw [State.reg_writeback_same, hres]
  · rw [State.reg_writeback_same]
    exact add8_z_iff (s.reg r) 1 false

/-- Settles O7: the subtractor on r and 1, written back to r with the old carry. -/
theorem decWrapsAndKeepsCarry : Obligations.DecWrapsAndKeepsCarry := by
  intro r s
  obtain ⟨hres, hh⟩ := sub8_one_spec (s.reg r)
  refine ⟨_, rfl, ?_, ?_, rfl, hh, rfl, rfl, rfl, RegsKeptBut.writeback s r _ _,
    exec_next (i := .dec r) rfl, decode_cons_incDec_form (d := 1) rfl⟩
  · rw [State.reg_writeback_same, hres]
  · rw [State.reg_writeback_same]
    exact sub8_z_iff (s.reg r) 1 false

end Sys2Proof.Machine
end

