-- ==== Sys2Proof/Proofs/Arith16.lean ====
section
/-! The 16-bit arithmetic of 41_arith16.md (R131): ADDHL writes the sum of HL and a pair to HL, then the four flags, so its
proof is the 16-bit adder's law (R130) read through the two half writes of HL (R33). -/

namespace Sys2Proof.Machine

/-- A write of the flags after a change of some registers touches no further register. -/
theorem RegsKeptBut.setFlags_after {changed : List Reg8} {s t : State} (h : RegsKeptBut changed s t) (f : Flags) :
    RegsKeptBut changed s (t.setFlags f) :=
  fun q hq => (t.reg_setFlags f q).trans (h q hq)

/-- The two bytes of the adder's result (R131): the low one is the sum modulo 256, as 256 divides 65536. -/
theorem add16_res_bytes (p q : Word) :
    (highByte (add16 p q).res).toNat = (p.toNat + q.toNat) % 65536 / 256 ∧
      (lowByte (add16 p q).res).toNat = (p.toNat + q.toNat) % 256 := by
  obtain ⟨hres, -⟩ := add16_spec p q
  constructor
  · rw [highByte_toNat, hres]
  · rw [lowByte_toNat, hres]
    exact Nat.mod_mod_of_dvd _ (by decide)

/-- The form F_ADDHL with the pair code `11`, which would be SP, names no r16 target, so the byte is illegal (R63, R75). -/
theorem decode_cons_addHl_sp (more : List Byte) : decode (0x39#8 :: more) = .notInCore 1 := rfl

/-- Settles O8: the 16-bit adder on HL and the pair, written to HL as its two halves, and the flags after it. -/
theorem addHlSumsPairs : Obligations.AddHlSumsPairs := by
  refine ⟨fun rr s => ?_, decode_cons_addHl_sp⟩
  have hl : (Pair.hl, Reg8.h, Reg8.l) ∈ registerPairs := by decide
  obtain ⟨hres, hz, hh, hc⟩ := add16_spec (s.pair .hl) (s.pair (pairOf rr))
  obtain ⟨hhigh, hlow⟩ := add16_res_bytes (s.pair .hl) (s.pair (pairOf rr))
  refine ⟨_, rfl, ?_, ?_, ?_, hz, rfl, hh, hc, (RegsKeptBut.setPair hl s _).setFlags_after _,
    exec_next (i := .addhl rr) rfl, decode_cons_of_encode rfl⟩
  · rw [State.pair_hl_setFlags, State.pair_setPair_hl, hres]
  · rw [State.reg_setFlags, State.reg_setPair_high hl, hhigh]
  · rw [State.reg_setFlags, State.reg_setPair_low hl, hlow]

end Sys2Proof.Machine
end

