-- ==== Sys2Proof/Proofs/Logic.lean ====
section
/-! The bitwise logic of 42_logic.md (R140 to R143). AND, OR and XOR write back to A the two operands combined bit by bit,
with Z telling whether the written byte is 0; CPL writes back the complement of A and keeps Z and C. -/

namespace Sys2Proof.Machine

/-- A writeback whose Z is that of its result leaves Z set exactly when its destination is 0 (R78). -/
theorem State.z_writeback_iff (s : State) (dest : Reg8) {v : Byte} {f : Flags} (hz : f.z = isZero v) :
    (s.writeback dest v f).flags.z = true ↔ ((s.writeback dest v f).reg dest).toNat = 0 := by
  rw [State.flags_writeback, State.reg_writeback_same, hz, isZero_iff]

/-- The exclusive OR of two bytes is 0 only if they are equal (R142). -/
theorem isZero_xor_iff_eq (p q : Byte) : isZero (p ^^^ q) = true ↔ p = q := by
  rw [isZero_iff, ← BitVec.toNat_zero, BitVec.toNat_inj, BitVec.xor_eq_zero_iff]

/-- Flipping every bit of a byte takes it from 255 (R143). -/
theorem toNat_xor_0xFF (v : Byte) : (v ^^^ 0xFF#8).toNat = 255 - v.toNat :=
  calc (v ^^^ 0xFF#8).toNat
    _ = (~~~v).toNat := congrArg BitVec.toNat BitVec.xor_allOnes
    _ = 255 - v.toNat := BitVec.toNat_not

/-- Settles O9: the conjunction of A and r bit by bit, written back to A. -/
theorem andCombinesWithOperand : Obligations.AndCombinesWithOperand := by
  intro r s
  refine ⟨_, rfl, fun j => ?_, State.z_writeback_iff s .a rfl, rfl, rfl, rfl, RegsKeptBut.writeback s .a _ _,
    exec_next (i := .and r) rfl, decode_cons_of_encode rfl⟩
  rw [State.reg_writeback_same, BitVec.getLsbD_and]

/-- Settles O10: the disjunction of A and r bit by bit, written back to A. -/
theorem orCombinesWithOperand : Obligations.OrCombinesWithOperand := by
  intro r s
  refine ⟨_, rfl, fun j => ?_, State.z_writeback_iff s .a rfl, rfl, rfl, rfl, RegsKeptBut.writeback s .a _ _,
    exec_next (i := .or r) rfl, decode_cons_of_encode rfl⟩
  rw [State.reg_writeback_same, BitVec.getLsbD_or]

/-- Settles O11: the exclusive OR of A and r bit by bit, written back to A; it is 0 exactly when A equals r. -/
theorem xorCombinesWithOperand : Obligations.XorCombinesWithOperand := by
  intro r s
  refine ⟨_, rfl, fun j => ?_, State.z_writeback_iff s .a rfl, rfl, rfl, rfl, isZero_xor_iff_eq (s.reg .a) (s.reg r),
    RegsKeptBut.writeback s .a _ _, exec_next (i := .xor r) rfl, decode_cons_of_encode rfl⟩
  rw [State.reg_writeback_same, BitVec.getLsbD_xor]

/-- Settles O12: the complement of A, written back to A with the old Z and C. -/
theorem cplComplementsAccumulator : Obligations.CplComplementsAccumulator := by
  intro s
  refine ⟨_, rfl, ?_, rfl, rfl, rfl, rfl, RegsKeptBut.writeback s .a _ _, exec_next (i := .cpl) rfl,
    decode_cons_of_encode rfl⟩
  rw [State.reg_writeback_same, toNat_xor_0xFF]

end Sys2Proof.Machine
end

