-- ==== Sys2Proof/Proofs/CarryFlag.lean ====
section
/-! The carry-flag operations of 43_carry_flag.md (R160, R161). CCF and SCF are one write of the flags that keeps Z, so the
frame of each is that of a flags write. -/

namespace Sys2Proof.Machine

/-- Settles O13: one write of the flags, in which the carry is the complement of the old one. -/
theorem ccfTogglesCarry : Obligations.CcfTogglesCarry := by
  intro s
  exact ⟨_, rfl, rfl, rfl, rfl, rfl, RegsKeptBut.setFlags s _, exec_next (i := .ccf) rfl, decode_cons_of_encode rfl⟩

/-- Settles O14: one write of the flags, in which the carry is 1; the CCF after it toggles that 1, by O13. -/
theorem scfSetsCarry : Obligations.ScfSetsCarry := by
  intro s
  refine ⟨_, rfl, rfl, rfl, rfl, rfl, ?_, RegsKeptBut.setFlags s _, exec_next (i := .scf) rfl,
    decode_cons_of_encode rfl⟩
  obtain ⟨u, hu, hc, -⟩ := ccfTogglesCarry (s.setFlags { s.flags with n := false, h := false, c := true })
  exact ⟨u, hu, hc⟩

end Sys2Proof.Machine
end

