-- ==== Sys2Proof/Proofs/Rotate.lean ====
section
/-! The accumulator rotates of 44_rotate.md (R170 to R173). All four write back to A a shifted value with the bit rotated
out as carry, so what a rotate leaves is proved once, for any shifted value; each instruction then supplies the bits of its
shift. The circular rotates are the shifts of the other two with A's own outgoing bit, not the carry, rotated in. -/

namespace Sys2Proof.Machine

theorem getLsbD_rlc8 (v : Byte) (j : Fin 8) :
    (rlc8 v).getLsbD j = if j.val = 0 then v.getLsbD 7 else v.getLsbD (j.val - 1) :=
  getLsbD_rl8 v (v.getLsbD 7) j

theorem getLsbD_rrc8 (v : Byte) (j : Fin 8) :
    (rrc8 v).getLsbD j = if j.val = 7 then v.getLsbD 0 else v.getLsbD (j.val + 1) :=
  getLsbD_rr8 v (v.getLsbD 0) j

/-- What a rotate leaves that writes the byte `v` to A and rotates the bit `out` out: the bits of `v`, the four flags, the
frame, and the one byte it is decoded from (44_rotate.md). -/
theorem exec_rotate_spec {i : Instr} {s : State} {v code : Byte} {out : Bool} {bits : Fin 8 → Bool}
    (hexec : exec i s = .next (s.writeback .a v (rotateFlags out))) (hbits : ∀ j : Fin 8, v.getLsbD j = bits j)
    (hcode : encode i = [code]) :
    ∃ t : State, exec i s = .next t ∧
      (∀ j : Fin 8, (t.reg .a).getLsbD j = bits j) ∧
      t.flags.c = out ∧ t.flags.z = false ∧ t.flags.n = false ∧ t.flags.h = false ∧
      RegsKeptBut [.a] s t ∧ RestKept s t ∧
      ∀ more : List Byte, decode (code :: more) = .instr i 1 := by
  refine ⟨_, hexec, fun j => ?_, rfl, rfl, rfl, rfl, RegsKeptBut.writeback s .a _ _, exec_next hexec,
    decode_cons_of_encode hcode⟩
  rw [State.reg_writeback_same, hbits]

/-- Settles O15: the left shift of A with the carry rotated in. -/
theorem rlaRotatesThroughCarry : Obligations.RlaRotatesThroughCarry :=
  fun s => exec_rotate_spec rfl (getLsbD_rl8 (s.reg .a) s.flags.c) rfl

/-- Settles O16: the right shift of A with the carry rotated in. -/
theorem rraRotatesThroughCarry : Obligations.RraRotatesThroughCarry :=
  fun s => exec_rotate_spec rfl (getLsbD_rr8 (s.reg .a) s.flags.c) rfl

/-- Settles O17: the left shift of A with its own bit 7 rotated in. -/
theorem rlcaRotatesCircular : Obligations.RlcaRotatesCircular :=
  fun s => exec_rotate_spec rfl (getLsbD_rlc8 (s.reg .a)) rfl

/-- Settles O18: the right shift of A with its own bit 0 rotated in. -/
theorem rrcaRotatesCircular : Obligations.RrcaRotatesCircular :=
  fun s => exec_rotate_spec rfl (getLsbD_rrc8 (s.reg .a)) rfl

end Sys2Proof.Machine
end

