-- ==== Sys2Proof/Proofs/Bit.lean ====
section
/-! The single-bit operations of 45_bit.md (R191 to R193). BIT is one write of the flags, with Z the complement of the
tested bit. SET and RESET are one write of their register by a byte that differs from the old one at the named bit only, so
what such a write leaves is proved once, for any byte. -/

namespace Sys2Proof

/-- A CB form with a legal kind is decoded from its prefix and its three fields, whatever follows (R66, R70, R72). -/
theorem decode_cons_cb_form {k : BitVec 2} {b : Fin 8} {r : Reg8} {i : Instr} (h : cbInstr k b r = some i)
    (more : List Byte) :
    decode (0xCB#8 :: (k ++ (BitVec.ofFin b : BitVec 3) ++ r.code : Byte) :: more) = .instr i 2 :=
  decode_append (decode_cb_form h) more

end Sys2Proof

namespace Sys2Proof.Machine

/-- A write of a register touches no other register (R23). -/
theorem RegsKeptBut.setReg (s : State) (r : Reg8) (v : Byte) : RegsKeptBut [r] s (s.setReg r v) := by
  intro q hq
  exact s.reg_setReg_ne v (by simpa using hq)

/-- The tested bit as the binary digit of the register's number (R190). -/
theorem not_testBit8_iff (v : Byte) (b : Fin 8) : (!testBit8 v b) = true ↔ v.toNat / 2 ^ b.val % 2 = 0 := by
  have hdigit : testBit8 v b = decide (v.toNat / 2 ^ b.val % 2 = 1) := Nat.testBit_eq_decide_div_mod_eq
  rw [hdigit, Bool.not_eq_true', decide_eq_false_iff_not]
  exact Nat.mod_two_ne_one

theorem getLsbD_setBit8_eq_ite (v : Byte) (b j : Fin 8) :
    (setBit8 v b).getLsbD j = if j = b then true else v.getLsbD j := by
  rw [getLsbD_setBit8, Bool.if_true_left]

theorem getLsbD_resetBit8_eq_ite (v : Byte) (b j : Fin 8) :
    (resetBit8 v b).getLsbD j = if j = b then false else v.getLsbD j := by
  rw [getLsbD_resetBit8, Bool.if_false_left]

/-- What a CB form leaves that writes the byte `v` to its register and nothing else: the bits of `v`, the flags and the
frame, and the bytes it is decoded from (45_bit.md). -/
theorem exec_setReg_spec {k : BitVec 2} {b : Fin 8} {r : Reg8} {i : Instr} {s : State} {v : Byte} {bits : Fin 8 → Bool}
    (hform : cbInstr k b r = some i) (hexec : exec i s = .next (s.setReg r v))
    (hbits : ∀ j : Fin 8, v.getLsbD j = bits j) :
    ∃ t : State, exec i s = .next t ∧
      (∀ j : Fin 8, (t.reg r).getLsbD j = bits j) ∧ t.flags = s.flags ∧
      RegsKeptBut [r] s t ∧ RestKept s t ∧
      ∀ more : List Byte,
        decode (0xCB#8 :: (k ++ (BitVec.ofFin b : BitVec 3) ++ r.code : Byte) :: more) = .instr i 2 := by
  refine ⟨_, hexec, fun j => ?_, s.flags_setReg r v, RegsKeptBut.setReg s r v, exec_next hexec,
    decode_cons_cb_form hform⟩
  rw [State.reg_setReg_same, hbits]

/-- Settles O19: one write of the flags, in which Z is the complement of the tested bit. -/
theorem bitTestsOneBit : Obligations.BitTestsOneBit := by
  intro b r s
  exact ⟨_, rfl, not_testBit8_iff (s.reg r) b, rfl, rfl, rfl, RegsKeptBut.setFlags s _, exec_next (i := .bit b r) rfl,
    decode_cons_cb_form rfl⟩

/-- Settles O20: one write of r, by its old value with bit b set. -/
theorem setSetsOneBit : Obligations.SetSetsOneBit :=
  fun b r s => exec_setReg_spec rfl rfl (getLsbD_setBit8_eq_ite (s.reg r) b)

/-- Settles O21: one write of r, by its old value with bit b cleared. -/
theorem resetClearsOneBit : Obligations.ResetClearsOneBit :=
  fun b r s => exec_setReg_spec rfl rfl (getLsbD_resetBit8_eq_ite (s.reg r) b)

end Sys2Proof.Machine
end

