-- ==== Sys2Proof/Proofs/Exceptions.lean ====
section
/-! The stuck core of 60_exceptions.md (R216): the latch is looked at before the input and before the harness's offset, and
a launch is what clears it (R231). -/

namespace Sys2Proof.Machine

/-- The step of a faulted core (R216, R236), the harness's own look at the latch. -/
theorem step_faulted {s : State} (hf : s.faulted = true) : step s = .fault .stuck := by
  simp [step, harnessTurn, hf]

/-- Settles O32: execute and the step both stop at the set latch, and a launch clears it. -/
theorem faultedCoreIsStuck : Obligations.FaultedCoreIsStuck :=
  fun s hf => ⟨execute_faulted hf, step_faulted hf, s.faulted_launch⟩

end Sys2Proof.Machine
end

