-- ==== Sys2Proof/Proofs/Launch.lean ====
section
/-! The launch of 70_reset_and_hazards.md (R230, R231): the register file is the one `init_state` gives, so every read of
a register or of the flags after a launch is a read of that file, whatever the state before it held. -/

namespace Sys2Proof.Machine

@[simp] theorem State.reg_launch (s : State) (d : InitState) (q : Reg8) :
    (s.launch d).reg q = (RegFile.ofInit d).reg q :=
  congrArg (RegFile.reg · q) (s.regs_launch d)

@[simp] theorem State.flags_launch (s : State) (d : InitState) :
    (s.launch d).flags = { z := d.zero, n := d.subtract, h := d.halfCarry, c := d.carry } :=
  congrArg RegFile.flags (s.regs_launch d)

@[simp] theorem State.faulted_reset : State.reset.faulted = false := rfl

/-- Settles O39: each register read is a read of the file `init_state` gives; the latch is cleared by the launch and
clear at reset. -/
theorem launchTakesInitState : Obligations.LaunchTakesInitState := by
  refine ⟨fun s d => ?_, State.faulted_reset⟩
  exact ⟨s.reg_launch d .a, s.reg_launch d .b, s.reg_launch d .c, s.reg_launch d .d, s.reg_launch d .e,
    s.reg_launch d .h, s.reg_launch d .l, s.flags_launch d, s.faulted_launch d⟩

end Sys2Proof.Machine
end

