-- ==== Sys2Proof/Proofs/Inputs.lean ====
section
/-! What `execute` does with what it is handed (10_state.md R37, 60_exceptions.md R210 to R214): bytes stand for the
instruction whose encoding they begin with and otherwise raise the fault, and an abstract value stands for the instruction
that presents it and otherwise raises the fault. -/

namespace Sys2Proof

/-- Settles O22: the decoder reads an encoding back and looks at no byte after it. -/
theorem decodeOfEncode : Obligations.DecodeOfEncode :=
  fun i more => decode_append (decode_encode i) more

/-- Settles O28: the decoder evaluated on the bytes. -/
theorem sampleBytesDecodeAsTabled : Obligations.SampleBytesDecodeAsTabled := by
  unfold Obligations.SampleBytesDecodeAsTabled
  decide

/-- Bytes that begin with no encoding give a verdict for the form they have, not an instruction (R71, R75). -/
theorem ofOption_of_no_encoding {bs : List Byte} {n : Nat} {o : Option Instr} (hbs : ∀ i : Instr, ¬ encode i <+: bs)
    (h : decode bs = Decoded.ofOption n o) : decode bs = .notInCore n := by
  cases o with
  | none => exact h
  | some i =>
    obtain ⟨-, hbegins⟩ := decode_eq_instr_iff.1 h
    exact absurd hbegins (hbs i)

/-- An operand outside the legal set is what the check finds first (R214). -/
theorem validate_of_operand_illegal {v : PresentedInstr} (h : v.operandLegal = false) :
    validate v = .error .operandOutOfSet := by
  cases v with
  | reg op t | bitwise op b t =>
    have ht : t.toReg8 = none := Option.isNone_iff_eq_none.1 (Option.isSome_eq_false_iff.1 h)
    rw [validate, ht]
  | addhl t =>
    have ht : t.toReg16 = none := Option.isNone_iff_eq_none.1 (Option.isSome_eq_false_iff.1 h)
    rw [validate, ht]
  | plain op => cases h

/-- A bit index outside [0, 7] is what the check finds when the operand is legal (R214). -/
theorem validate_of_bitIndex_illegal {v : PresentedInstr} (hop : v.operandLegal = true)
    (h : v.bitIndexLegal = false) : validate v = .error .bitIndexOutOfRange := by
  cases v with
  | bitwise op b t =>
    obtain ⟨r, hr⟩ := Option.isSome_iff_exists.1 hop
    simp [validate, hr, of_decide_eq_false h]
  | _ => cases h

/-- The check accepts a value whose operand and bit index are legal (R61, R213). -/
theorem validate_of_wellFormed {v : PresentedInstr} (h : v.wellFormed = true) : ∃ i : Instr, validate v = .ok i := by
  obtain ⟨hop, hbit⟩ := (Bool.and_eq_true _ _).mp h
  cases v with
  | reg op t =>
    obtain ⟨r, hr⟩ := Option.isSome_iff_exists.1 hop
    exact ⟨op.toInstr r, by rw [validate, hr]⟩
  | addhl t =>
    obtain ⟨rr, hr⟩ := Option.isSome_iff_exists.1 hop
    exact ⟨.addhl rr, by rw [validate, hr]⟩
  | plain op => exact ⟨op.toInstr, rfl⟩
  | bitwise op b t =>
    obtain ⟨r, hr⟩ := Option.isSome_iff_exists.1 hop
    exact ⟨op.toInstr ⟨b, of_decide_eq_true hbit⟩ r, by simp [validate, hr, of_decide_eq_true hbit]⟩

end Sys2Proof

namespace Sys2Proof.Machine

/-- The outcome R210 and R211 give bytes that begin with no encoding: the reason, and the bytes looked at. -/
def illegalReport (bs : List Byte) : FaultReport where
  reason := if bs = [0xCB#8] then .truncated else .notInCore
  info := .bytes (bs.take (if bs.head? = some 0xCB#8 then 2 else 1))

/-- Bytes that begin with no encoding raise the fault with that outcome (R75), form by form. -/
theorem resolve_of_no_encoding {bs : List Byte} (hbs : ∀ i : Instr, ¬ encode i <+: bs) :
    resolve (.bytes bs) = .error (illegalReport bs) := by
  obtain ⟨rfl, -⟩ | ⟨rfl, -⟩ | ⟨b1, rest, rfl, e⟩ | ⟨b0, rest, hb0, rfl, e⟩ := decode_cases bs
  · rfl
  · rfl
  · simp [resolve, ofOption_of_no_encoding hbs e, illegalReport]
  · simp [resolve, ofOption_of_no_encoding hbs e, illegalReport, hb0]

/-- Settles O25: the fault of bytes that begin with no encoding, and the decoder evaluated at every byte for the counts. -/
theorem illegalBytesTakeTheFault : Obligations.IllegalBytesTakeTheFault :=
  ⟨fun _ _ hf hbs => execute_error hf (resolve_of_no_encoding hbs), rfl, rfl⟩

/-- A value the check refuses raises the fault with the check's reason and records the value (R210). -/
theorem execute_value_error {v : PresentedInstr} {reason : FaultReason} {s : State} (hf : s.faulted = false)
    (h : validate v = .error reason) :
    execute (.value v) s = .next (s.raiseFault { reason := reason, info := .value v }) :=
  execute_error hf (by rw [resolve, h])

/-- Settles O26: the check's three answers, each taken through `execute`. -/
theorem presentedValuesAreChecked : Obligations.PresentedValuesAreChecked := by
  intro v s hf
  refine ⟨fun hop => ?_, fun hop hbit => ?_, fun hwf => ?_⟩
  · exact execute_value_error hf (validate_of_operand_illegal hop)
  · exact execute_value_error hf (validate_of_bitIndex_illegal hop hbit)
  · obtain ⟨i, hi⟩ := validate_of_wellFormed hwf
    obtain rfl := present_of_validate hi
    exact ⟨i, rfl, execute_ok hf (resolve_present i)⟩

/-- Settles O27: the bytes and the value stand for one instruction, and a set latch stops both. -/
theorem bytesAndValuesAgree : Obligations.BytesAndValuesAgree := by
  intro i more s
  cases hf : s.faulted with
  | true => rw [execute_faulted hf, execute_faulted hf]
  | false => rw [execute_ok hf (resolve_instr (decodeOfEncode i more)), execute_ok hf (resolve_present i)]

end Sys2Proof.Machine
end

