-- ==== Sys2Proof/Proofs/Frames.lean ====
section
/-! What every instruction does and leaves alone (10_state.md R24, R26; 60_exceptions.md R212): it completes in every
state, writes only the registers and flags of the tables, and what it writes depends only on the registers it names and,
for five instructions, on the carry. -/

namespace Sys2Proof.Machine

/-- Every arm of the dispatch answers a next state (R212). -/
theorem exec_total (i : Instr) (s : State) : ∃ t : State, exec i s = .next t := by
  cases i <;> exact ⟨_, rfl⟩

/-- Settles O35: no arm stops, and a next state of `exec` differs in the register file alone. -/
theorem noLegalInstructionFaults : Obligations.NoLegalInstructionFaults := by
  intro i s
  obtain ⟨t, ht⟩ := exec_total i s
  exact ⟨t, ht, exec_next ht⟩

/-- Settles O36: the frame of the one write each instruction makes. -/
theorem registersWrittenAsTabled : Obligations.RegistersWrittenAsTabled := by
  intro i s
  cases i with
  | add r | adc r | sub r | sbc r | and r | xor r | or r => exact ⟨_, rfl, RegsKeptBut.writeback s .a _ _⟩
  | rlca | rrca | rla | rra | cpl => exact ⟨_, rfl, RegsKeptBut.writeback s .a _ _⟩
  | inc r | dec r => exact ⟨_, rfl, RegsKeptBut.writeback s r _ _⟩
  | set b r | reset b r => exact ⟨_, rfl, RegsKeptBut.setReg s r _⟩
  | addhl rr =>
    have hl : (Pair.hl, Reg8.h, Reg8.l) ∈ registerPairs := by decide
    exact ⟨_, rfl, (RegsKeptBut.setPair hl s _).setFlags_after _⟩
  | cp r | bit b r | ccf | scf => exact ⟨_, rfl, RegsKeptBut.setFlags s _⟩

/-- Settles O37: the flags each instruction writes, where the table says `-` the old ones. -/
theorem flagsKeptAsTabled : Obligations.FlagsKeptAsTabled := by
  intro i s
  cases i with
  | add r | adc r | sub r | sbc r | and r | xor r | or r | cp r => exact ⟨_, rfl, nofun, nofun, nofun, nofun⟩
  | addhl rr => exact ⟨_, rfl, nofun, nofun, nofun, nofun⟩
  | rlca | rrca | rla | rra => exact ⟨_, rfl, nofun, nofun, nofun, nofun⟩
  | inc r | dec r | bit b r => exact ⟨_, rfl, nofun, nofun, nofun, fun _ => rfl⟩
  | cpl => exact ⟨_, rfl, fun _ => rfl, nofun, nofun, fun _ => rfl⟩
  | scf | ccf => exact ⟨_, rfl, fun _ => rfl, nofun, nofun, nofun⟩
  | set b r | reset b r =>
    refine ⟨_, rfl, ?_⟩
    rw [State.flags_setReg]
    exact ⟨fun _ => rfl, fun _ => rfl, fun _ => rfl, fun _ => rfl⟩

/-- Two values of the flags agree on every flag that is not marked as kept. -/
def FlagsAgreeBut (kept f g : Flags) : Prop :=
  (kept.z = false → f.z = g.z) ∧ (kept.n = false → f.n = g.n) ∧
    (kept.h = false → f.h = g.h) ∧ (kept.c = false → f.c = g.c)

theorem FlagsAgreeBut.refl (kept f : Flags) : FlagsAgreeBut kept f f :=
  ⟨fun _ => rfl, fun _ => rfl, fun _ => rfl, fun _ => rfl⟩

theorem FlagsAgreeBut.of_eq (kept : Flags) {f g : Flags} (h : f = g) : FlagsAgreeBut kept f g :=
  h ▸ FlagsAgreeBut.refl kept f

/-- Where all four flags are kept there is nothing to agree on. -/
theorem FlagsAgreeBut.all_kept (f g : Flags) : FlagsAgreeBut { z := true, n := true, h := true, c := true } f g :=
  ⟨nofun, nofun, nofun, nofun⟩

/-- The registers an instruction writes, and the flags it does not keep, are the same in two states after it. -/
def OutputsAgree (i : Instr) (t t' : State) : Prop :=
  (∀ q ∈ writtenRegs i, t.reg q = t'.reg q) ∧ FlagsAgreeBut (keptFlags i) t.flags t'.flags

/-- Two writebacks of one byte agree if their flags do (R78). -/
theorem OutputsAgree.writeback {i : Instr} {s s' : State} {dest : Reg8} {v v' : Byte} {f f' : Flags}
    (hdest : writtenRegs i = [dest]) (hv : v = v') (hf : FlagsAgreeBut (keptFlags i) f f') :
    OutputsAgree i (s.writeback dest v f) (s'.writeback dest v' f') := by
  refine ⟨fun q hq => ?_, hf⟩
  obtain rfl : q = dest := by simpa [hdest] using hq
  rw [State.reg_writeback_same, State.reg_writeback_same, hv]

/-- Two writes of the flags, and of no register, agree if the flags do. -/
theorem OutputsAgree.setFlags {i : Instr} {s s' : State} {f f' : Flags} (hnone : writtenRegs i = [])
    (hf : FlagsAgreeBut (keptFlags i) f f') : OutputsAgree i (s.setFlags f) (s'.setFlags f') :=
  ⟨fun q hq => by simp [hnone] at hq, hf⟩

/-- Two writes of one byte to a register, by an instruction that keeps every flag, agree. -/
theorem OutputsAgree.setReg {i : Instr} {s s' : State} {dest : Reg8} {v v' : Byte} (hdest : writtenRegs i = [dest])
    (hkept : keptFlags i = { z := true, n := true, h := true, c := true }) (hv : v = v') :
    OutputsAgree i (s.setReg dest v) (s'.setReg dest v') := by
  refine ⟨fun q hq => ?_, hkept ▸ FlagsAgreeBut.all_kept _ _⟩
  obtain rfl : q = dest := by simpa [hdest] using hq
  rw [State.reg_setReg_same, State.reg_setReg_same, hv]

/-- Two writes of one word to HL, with the flags after it, agree if the flags do (R131). -/
theorem OutputsAgree.setPair_hl {rr : Reg16} {s s' : State} {v v' : Word} {f f' : Flags} (hv : v = v') (hf : f = f') :
    OutputsAgree (.addhl rr) ((s.setPair .hl v).setFlags f) ((s'.setPair .hl v').setFlags f') := by
  refine ⟨fun q hq => ?_, FlagsAgreeBut.of_eq _ hf⟩
  have hl : (Pair.hl, Reg8.h, Reg8.l) ∈ registerPairs := by decide
  obtain rfl | rfl : q = .h ∨ q = .l := by simpa [writtenRegs] using hq
  · rw [State.reg_setFlags, State.reg_setFlags, State.reg_setPair_high hl, State.reg_setPair_high hl, hv]
  · rw [State.reg_setFlags, State.reg_setFlags, State.reg_setPair_low hl, State.reg_setPair_low hl, hv]

/-- ADDHL reads HL and its operand, and no register of another pair (R24). -/
theorem pairs_eq_of_readRegs_addhl {rr : Reg16} {s s' : State}
    (hregs : ∀ q ∈ readRegs (.addhl rr), s.reg q = s'.reg q) :
    s.pair .hl = s'.pair .hl ∧ s.pair (pairOf rr) = s'.pair (pairOf rr) := by
  cases rr <;> simp_all [readRegs, State.pair, pairOf]

/-- Settles O38: each instruction writes values computed from the registers it reads and, where it reads it, the carry, so
they are equal in two states that agree on those. -/
theorem resultsDependOnNamedInputsOnly : Obligations.ResultsDependOnNamedInputsOnly := by
  intro i s s' hregs hcarry
  suffices h : ∃ t t', exec i s = .next t ∧ exec i s' = .next t' ∧ OutputsAgree i t t' from h
  cases i with
  | add r | sub r | and r | xor r | or r =>
    obtain ⟨ha, hr⟩ : s.reg .a = s'.reg .a ∧ s.reg r = s'.reg r := by simpa [readRegs] using hregs
    exact ⟨_, _, rfl, rfl, .writeback rfl (by rw [ha, hr]) (.of_eq _ (by rw [ha, hr]))⟩
  | adc r | sbc r =>
    obtain ⟨ha, hr⟩ : s.reg .a = s'.reg .a ∧ s.reg r = s'.reg r := by simpa [readRegs] using hregs
    have hc := hcarry rfl
    exact ⟨_, _, rfl, rfl, .writeback rfl (by rw [ha, hr, hc]) (.of_eq _ (by rw [ha, hr, hc]))⟩
  | cp r =>
    obtain ⟨ha, hr⟩ : s.reg .a = s'.reg .a ∧ s.reg r = s'.reg r := by simpa [readRegs] using hregs
    exact ⟨_, _, rfl, rfl, .setFlags rfl (.of_eq _ (by rw [ha, hr]))⟩
  | inc r | dec r =>
    have hr := hregs r (by simp [readRegs])
    exact ⟨_, _, rfl, rfl, .writeback rfl (by rw [hr])
      ⟨fun _ => by rw [hr], fun _ => rfl, fun _ => by rw [hr], nofun⟩⟩
  | addhl rr =>
    obtain ⟨hhl, hrr⟩ := pairs_eq_of_readRegs_addhl hregs
    exact ⟨_, _, rfl, rfl, .setPair_hl (by rw [hhl, hrr]) (by rw [hhl, hrr])⟩
  | rlca | rrca =>
    have ha := hregs .a (by simp [readRegs])
    exact ⟨_, _, rfl, rfl, .writeback rfl (by rw [ha]) (.of_eq _ (by rw [ha]))⟩
  | rla | rra =>
    have ha := hregs .a (by simp [readRegs])
    have hc := hcarry rfl
    exact ⟨_, _, rfl, rfl, .writeback rfl (by rw [ha, hc]) (.of_eq _ (by rw [ha]))⟩
  | cpl =>
    have ha := hregs .a (by simp [readRegs])
    exact ⟨_, _, rfl, rfl, .writeback rfl (by rw [ha]) ⟨nofun, fun _ => rfl, fun _ => rfl, nofun⟩⟩
  | scf => exact ⟨_, _, rfl, rfl, .setFlags rfl ⟨nofun, fun _ => rfl, fun _ => rfl, fun _ => rfl⟩⟩
  | ccf =>
    have hc := hcarry rfl
    exact ⟨_, _, rfl, rfl, .setFlags rfl ⟨nofun, fun _ => rfl, fun _ => rfl, fun _ => by rw [hc]⟩⟩
  | bit b r =>
    have hr := hregs r (by simp [readRegs])
    exact ⟨_, _, rfl, rfl, .setFlags rfl ⟨fun _ => by rw [hr], fun _ => rfl, fun _ => rfl, nofun⟩⟩
  | set b r | reset b r =>
    have hr := hregs r (by simp [readRegs])
    exact ⟨_, _, rfl, rfl, .setReg rfl rfl (by rw [hr])⟩

end Sys2Proof.Machine
end

