-- ==== Sys2Proof/Proofs/Step.lean ====
section
/-! One turn of the reference harness (70_reset_and_hazards.md R236): what it answers in each of its four cases, and the
invariant it keeps (60_exceptions.md R211, R216). -/

namespace Sys2Proof.Machine

/-- At the end of the program the run is over (R236). -/
theorem step_programEnd {s : State} (hf : s.faulted = false) (hp : s.pc = s.program.length) :
    step s = .refused .programEnd := by
  simp [step, harnessTurn, hf, hp]

theorem State.fetch_length (s : State) : s.fetch.length = s.program.length - s.pc :=
  List.length_drop

/-- An instruction decoded at the offset ends within the program, as it has at least one byte (R65). -/
theorem pc_add_length_le {s : State} {i : Instr} {n : Nat} (h : decode s.fetch = .instr i n) :
    0 < n ∧ s.pc + n ≤ s.program.length := by
  obtain ⟨hpos, hle⟩ := decode_length h
  rw [s.fetch_length] at hle
  omega

/-- The turn on bytes that decode: the instruction, and the move past its bytes (R236). -/
theorem step_instr {s t : State} {i : Instr} {n : Nat} (hf : s.faulted = false) (hd : decode s.fetch = .instr i n)
    (ht : exec i s = .next t) : step s = .next (t.advance n) := by
  obtain ⟨hpos, hle⟩ := pc_add_length_le hd
  have hp : s.pc ≠ s.program.length := by omega
  obtain ⟨hft, -⟩ := exec_next ht
  simp [step, harnessTurn, hf, hp, execute_ok hf (resolve_instr hd), ht, hft, hd, Decoded.length]

/-- The turn on bytes that raise the fault: the fault, and no move (R211, R236). -/
theorem step_error {s : State} {r : FaultReport} (hf : s.faulted = false) (hp : s.pc ≠ s.program.length)
    (hr : resolve (.bytes s.fetch) = .error r) : step s = .next (s.raiseFault r) := by
  simp [step, harnessTurn, hf, hp, execute_error hf hr]

/-- With a clear latch and before the end of the program, the turn answers a next state. -/
theorem step_total {s : State} (hf : s.faulted = false) (hp : s.pc ≠ s.program.length) :
    ∃ t : State, step s = .next t := by
  cases hr : resolve (.bytes s.fetch) with
  | error r => exact ⟨_, step_error hf hp hr⟩
  | ok i =>
    obtain ⟨n, hd⟩ := decode_of_resolve hr
    obtain ⟨t, ht⟩ := exec_total i s
    exact ⟨_, step_instr hf hd ht⟩

/-- Settles O29: the turn on bytes that decode; the instruction itself does not move the offset. -/
theorem stepRunsDecodedInstruction : Obligations.StepRunsDecodedInstruction := by
  intro s i n hf hd
  obtain ⟨t, ht⟩ := exec_total i s
  obtain ⟨-, -, -, hpc⟩ := exec_next ht
  exact ⟨t, ht, hpc ▸ step_instr hf hd ht⟩

/-- Settles O30: the turn on bytes that begin with no encoding, and the turn of the faulted core it leaves. -/
theorem stepTakesTheFaultInPlace : Obligations.StepTakesTheFaultInPlace := by
  rintro s bs hf hp rfl hbs
  exact ⟨_, step_error hf hp (resolve_of_no_encoding hbs), step_faulted rfl, rfl⟩

/-- Settles O31: the turn's answer in each case of the latch and the offset, which exclude each other. -/
theorem stepEndsOnlyAtProgramEnd : Obligations.StepEndsOnlyAtProgramEnd := by
  intro s
  cases hf : s.faulted with
  | true => simp [step_faulted hf]
  | false =>
    by_cases hp : s.pc = s.program.length
    · simp [step_programEnd hf hp, hp]
    · obtain ⟨t, ht⟩ := step_total hf hp
      simp [ht, hp]

/-- Settles O33: the turn of an instruction ends within the program and leaves the latch clear and no report; the turn that
takes the fault stays before the end and reports the bytes there. -/
theorem stepKeepsInvariant : Obligations.StepKeepsInvariant := by
  intro s t hinv hstep
  obtain ⟨hf, hp, ⟨i, n, u, hd, hu, rfl⟩ | ⟨r, hr, rfl⟩⟩ := step_next hstep
  · obtain ⟨hfaulted, hreport, hprogram, hpc⟩ := exec_next hu
    obtain ⟨-, hle⟩ := pc_add_length_le hd
    refine ⟨?_, fun _ => ?_, fun hset => ?_⟩
    · rw [State.pc_advance, State.program_advance, hpc, hprogram]
      exact hle
    · rw [State.report_advance, hreport, hinv.clear hf]
    · rw [State.faulted_advance, hfaulted, hf] at hset
      cases hset
  · exact ⟨hinv.pc_le, nofun, fun _ => ⟨lt_of_le_of_ne hinv.pc_le hp, r, rfl, hr⟩⟩

/-- A state with a clear latch, no report and the offset 0 meets the invariant. -/
theorem State.Inv.of_start {s : State} (hf : s.faulted = false) (hreport : s.report = none) (hp : s.pc = 0) : s.Inv where
  pc_le := hp ▸ Nat.zero_le _
  clear := fun _ => hreport
  held := fun hset => absurd (hf.symm.trans hset) Bool.false_ne_true

/-- Settles O34: reset, and a launch and load, clear the latch and the report and put the offset at 0. -/
theorem launchedStatesMeetInvariant : Obligations.LaunchedStatesMeetInvariant :=
  ⟨.of_start rfl rfl rfl, fun _ _ _ => .of_start rfl rfl rfl⟩

end Sys2Proof.Machine
end

