-- ==== Sys2Proof/Proofs/Sequences.lean ====
section
/-! Instructions in order (20_memory.md R57): each runs on the state the one before it left, so what a list does follows
from what its instructions do, and the facts about rotates, complements, single bits and the carry below are put together
from the laws of the single instructions. -/

namespace Sys2Proof.Machine

/-- A list completes if its first instruction does and the rest does from there. -/
theorem execSeq_cons_iff {i : Instr} {is : List Instr} {s u : State} :
    execSeq (i :: is) s = .next u ↔ ∃ t : State, exec i s = .next t ∧ execSeq is t = .next u := by
  obtain ⟨t, ht⟩ := exec_total i s
  simp [execSeq, ht]

theorem execSeq_singleton {i : Instr} {s t : State} (h : exec i s = .next t) : execSeq [i] s = .next t :=
  execSeq_cons_iff.2 ⟨t, h, rfl⟩

theorem execSeq_pair {i j : Instr} {s t u : State} (hi : exec i s = .next t) (hj : exec j t = .next u) :
    execSeq [i, j] s = .next u :=
  execSeq_cons_iff.2 ⟨t, hi, execSeq_singleton hj⟩

theorem execSeq_append {is js : List Instr} {s t u : State} (hi : execSeq is s = .next t)
    (hj : execSeq js t = .next u) : execSeq (is ++ js) s = .next u := by
  induction is generalizing s with
  | nil =>
    cases hi
    exact hj
  | cons i is ih =>
    obtain ⟨v, hv, hrest⟩ := execSeq_cons_iff.1 hi
    exact execSeq_cons_iff.2 ⟨v, hv, ih hrest⟩

section Turns
variable {n : Nat} [NeZero n]

/-- The list completes and turns the ring of `n` bits that `ring` reads from a state by `d` places: each place then holds
the bit that was `d` places on. -/
def Turns (is : List Instr) (ring : State → Fin n → Bool) (d : Fin n) : Prop :=
  ∀ s : State, ∃ t : State, execSeq is s = .next t ∧ ∀ j, ring t j = ring s (j + d)

variable {is js : List Instr} {ring : State → Fin n → Bool} {d e : Fin n}

/-- The turns of two lists add up. -/
theorem Turns.append (hi : Turns is ring d) (hj : Turns js ring e) : Turns (is ++ js) ring (e + d) := by
  intro s
  obtain ⟨t, ht, hd⟩ := hi s
  obtain ⟨u, hu, he⟩ := hj t
  refine ⟨u, execSeq_append ht hu, fun j => ?_⟩
  rw [he, hd, add_assoc]

theorem Turns.replicate {i : Instr} (h : Turns [i] ring d) (k : Nat) : Turns (List.replicate k i) ring (k • d) := by
  induction k with
  | zero =>
    intro s
    exact ⟨s, rfl, fun j => by rw [zero_nsmul, add_zero]⟩
  | succ k ih =>
    rw [succ_nsmul]
    exact h.append ih

/-- A list whose turn is 0 restores the ring. -/
theorem Turns.restores (h : Turns is ring 0) (s : State) : ∃ t : State, execSeq is s = .next t ∧ ring t = ring s := by
  obtain ⟨t, ht, hring⟩ := h s
  exact ⟨t, ht, funext fun j => by rw [hring, add_zero]⟩

end Turns

/-- The accumulator as a ring of eight bits, which the circular rotates turn. -/
def accRing (s : State) (j : Fin 8) : Bool :=
  (s.reg .a).getLsbD j

/-- The carry and the accumulator as a ring of nine bits, which the rotates through the carry turn. -/
def carryRing (s : State) : Fin 9 → Bool :=
  Fin.cons s.flags.c (accRing s)

theorem reg_a_eq_of_accRing {s t : State} (h : accRing t = accRing s) : t.reg .a = s.reg .a :=
  BitVec.eq_of_getLsbD_eq fun j hj => congrFun h ⟨j, hj⟩

theorem eq_of_carryRing {s t : State} (h : carryRing t = carryRing s) :
    t.reg .a = s.reg .a ∧ t.flags.c = s.flags.c := by
  obtain ⟨hc, ha⟩ := Fin.cons_inj.1 h
  exact ⟨reg_a_eq_of_accRing ha, hc⟩

/-- RLCA moves each bit up one place, bit 7 round to bit 0 (R172). -/
theorem turns_rlca : Turns [.rlca] accRing (-1) := by
  intro s
  obtain ⟨t, ht, hbits, -⟩ := rlcaRotatesCircular s
  refine ⟨t, execSeq_singleton ht, fun j => (hbits j).trans ?_⟩
  fin_cases j <;> rfl

/-- RRCA moves each bit down one place, bit 0 round to bit 7 (R173). -/
theorem turns_rrca : Turns [.rrca] accRing 1 := by
  intro s
  obtain ⟨t, ht, hbits, -⟩ := rrcaRotatesCircular s
  refine ⟨t, execSeq_singleton ht, fun j => (hbits j).trans ?_⟩
  fin_cases j <;> rfl

/-- RLA moves each bit up one place, bit 7 to the carry and the carry to bit 0 (R170). -/
theorem turns_rla : Turns [.rla] carryRing (-1) := by
  intro s
  obtain ⟨t, ht, hbits, hc, -⟩ := rlaRotatesThroughCarry s
  refine ⟨t, execSeq_singleton ht, Fin.cases hc fun j => (hbits j).trans ?_⟩
  fin_cases j <;> rfl

/-- RRA moves each bit down one place, bit 0 to the carry and the carry to bit 7 (R171). -/
theorem turns_rra : Turns [.rra] carryRing 1 := by
  intro s
  obtain ⟨t, ht, hbits, hc, -⟩ := rraRotatesThroughCarry s
  refine ⟨t, execSeq_singleton ht, Fin.cases hc fun j => (hbits j).trans ?_⟩
  fin_cases j <;> rfl

/-- Settles O43: the rotates turn a ring of eight or of nine bits, and each of the lists turns it by 0 in all. -/
theorem rotatesRestoreTheAccumulator : Obligations.RotatesRestoreTheAccumulator := by
  intro s
  refine ⟨?_, ?_, ?_, ?_, ?_⟩
  · obtain ⟨t, ht, hring⟩ := (turns_rlca.append turns_rrca).restores s
    exact ⟨t, ht, reg_a_eq_of_accRing hring⟩
  · obtain ⟨t, ht, hring⟩ := (turns_rlca.replicate 8).restores s
    exact ⟨t, ht, reg_a_eq_of_accRing hring⟩
  · obtain ⟨t, ht, hring⟩ := (turns_rrca.replicate 8).restores s
    exact ⟨t, ht, reg_a_eq_of_accRing hring⟩
  · obtain ⟨t, ht, hring⟩ := (turns_rla.replicate 9).restores s
    exact ⟨t, ht, eq_of_carryRing hring⟩
  · obtain ⟨t, ht, hring⟩ := (turns_rla.append turns_rra).restores s
    exact ⟨t, ht, eq_of_carryRing hring⟩

/-- A value of the flags is its four flags. -/
theorem Flags.eq_mk {f : Flags} {z n h c : Bool} (hz : f.z = z) (hn : f.n = n) (hh : f.h = h) (hc : f.c = c) :
    f = { z := z, n := n, h := h, c := c } := by
  subst hz hn hh hc
  rfl

/-- Settles O44: the laws of CPL and of CCF, each twice. -/
theorem complementsTwiceRestore : Obligations.ComplementsTwiceRestore := by
  intro s
  constructor
  · obtain ⟨t, ht, hta, htz, -, -, htc, -⟩ := cplComplementsAccumulator s
    obtain ⟨u, hu, hua, huz, hun, huh, huc, -⟩ := cplComplementsAccumulator t
    refine ⟨u, execSeq_pair ht hu, BitVec.eq_of_toNat_eq ?_, Flags.eq_mk (huz.trans htz) hun huh (huc.trans htc)⟩
    have hlt := (s.reg .a).isLt
    rw [hua, hta]
    omega
  · obtain ⟨t, ht, htc, -, -, htz, htregs, -⟩ := ccfTogglesCarry s
    obtain ⟨u, hu, huc, hun, huh, huz, huregs, -⟩ := ccfTogglesCarry t
    refine ⟨u, execSeq_pair ht hu, fun q => ?_, Flags.eq_mk (huz.trans htz) hun huh ?_⟩
    · rw [huregs q List.not_mem_nil, htregs q List.not_mem_nil]
    · rw [huc, htc, Bool.not_not]

/-- BIT after a write of one bit of a register, to `v`, reads `v` there and the old bit everywhere else (R191). -/
theorem execSeq_bit_after_write {i : Instr} {b : Fin 8} {r : Reg8} {v : Bool} {s t : State} (ht : exec i s = .next t)
    (hbits : ∀ j : Fin 8, (t.reg r).getLsbD j = if j = b then v else (s.reg r).getLsbD j)
    (hkept : RegsKeptBut [r] s t) (c : Fin 8) (q : Reg8) :
    ∃ u, execSeq [i, .bit c q] s = .next u ∧ u.flags.z = if c = b ∧ q = r then !v else !(s.reg q).getLsbD c := by
  refine ⟨_, execSeq_pair ht rfl, ?_⟩
  show (!(t.reg q).getLsbD c) = _
  by_cases hq : q = r
  · subst hq
    rw [hbits]
    by_cases hc : c = b <;> simp [hc]
  · simp [hkept q (by simpa using hq), hq]

/-- Settles O45: SET and RESET write one bit of one register, and BIT reads it. -/
theorem bitReadsWhatSetAndResetWrote : Obligations.BitReadsWhatSetAndResetWrote := by
  intro b c r q s
  constructor
  · obtain ⟨t, ht, hbits, -, hkept, -⟩ := setSetsOneBit b r s
    exact execSeq_bit_after_write ht hbits hkept c q
  · obtain ⟨t, ht, hbits, -, hkept, -⟩ := resetClearsOneBit b r s
    exact execSeq_bit_after_write ht hbits hkept c q

theorem toNat_mod_two (v : Byte) : v.toNat % 2 = (v.getLsbD 0).toNat := by
  rw [← BitVec.testBit_toNat, Nat.testBit_zero]
  obtain h | h := Nat.mod_two_eq_zero_or_one v.toNat <;> simp [h]

theorem toNat_ge_128_iff (v : Byte) : v.toNat ≥ 128 ↔ v.getLsbD 7 = true := by
  have hmsb : v.getLsbD 7 = decide (128 ≤ v.toNat) := BitVec.msb_eq_decide v
  rw [hmsb, decide_eq_true_iff]

/-- The carry out of bit 7 of a sum of two bytes is the sum's bit 8 (R100). -/
theorem toNat_carry_out {p q : Byte} {c : Bool} (h : c = true ↔ p.toNat + q.toNat > 255) :
    c.toNat = (p.toNat + q.toNat) / 256 := by
  have hp := p.isLt
  have hq := q.isLt
  cases c with
  | true =>
    have hsum := h.1 rfl
    rw [Bool.toNat_true]
    omega
  | false =>
    have hsum : ¬ p.toNat + q.toNat > 255 := fun hgt => Bool.false_ne_true (h.2 hgt)
    rw [Bool.toNat_false]
    omega

/-- Settles O46: the law of the first instruction gives the carry that the law of the second one reads. -/
theorem carryIsReadAsJustWritten : Obligations.CarryIsReadAsJustWritten := by
  intro r s
  obtain ⟨t, ht, htc, -, -, -, -, htregs, -⟩ := scfSetsCarry s
  have hta : t.reg .a = s.reg .a := htregs .a List.not_mem_nil
  have htr : t.reg r = s.reg r := htregs r List.not_mem_nil
  refine ⟨?_, ?_, ?_, ?_⟩
  · obtain ⟨u, hu, hsum, -⟩ := adcAddsWithCarryIn r t
    refine ⟨u, execSeq_pair ht hu, ?_⟩
    rw [hsum, hta, htr, htc, Bool.toNat_true]
  · obtain ⟨u, hu, hdiff, -⟩ := sbcSubtractsWithBorrowIn r t
    refine ⟨u, execSeq_pair ht hu, ?_⟩
    rw [hdiff, hta, htr, htc, Bool.toNat_true, Nat.cast_one]
  · obtain ⟨v, hv, -, -, -, -, hcarry, -⟩ := addSumsIntoAccumulator r s
    obtain ⟨u, hu, hbits, -⟩ := rlaRotatesThroughCarry v
    refine ⟨u, execSeq_pair hv hu, ?_⟩
    have hbit : (u.reg .a).getLsbD 0 = v.flags.c := hbits 0
    rw [toNat_mod_two, hbit, toNat_carry_out hcarry]
  · obtain ⟨v, hv, -, -, -, hborrow, -⟩ := cpSetsFlagsOnly r s
    obtain ⟨u, hu, hbits, -⟩ := rraRotatesThroughCarry v
    refine ⟨u, execSeq_pair hv hu, ?_⟩
    have hbit : (u.reg .a).getLsbD 7 = v.flags.c := hbits 7
    rw [toNat_ge_128_iff, hbit, hborrow]

end Sys2Proof.Machine
end

