-- ==== Sys2Proof/Proofs/Runs.lean ====
section
/-! Whole runs of the reference harness (70_reset_and_hazards.md R236 to R238). The loop runs an encoded instruction list
in order, whatever bytes follow it, and every list of bytes is such a list followed by bytes that begin with no encoding:
where those are none the run ends normally, and otherwise it takes their fault. -/

namespace Sys2Proof.Machine

/-- A list of instructions completes in every state (R212). -/
theorem execSeq_total (is : List Instr) (s : State) : ∃ t : State, execSeq is s = .next t := by
  induction is generalizing s with
  | nil => exact ⟨s, rfl⟩
  | cons i is ih =>
    obtain ⟨t, ht⟩ := exec_total i s
    obtain ⟨u, hu⟩ := ih t
    exact ⟨u, execSeq_cons_iff.2 ⟨t, ht, hu⟩⟩

/-- A list of instructions touches the register file only. -/
theorem execSeq_next {is : List Instr} {s u : State} (h : execSeq is s = .next u) : RestKept s u := by
  induction is generalizing s with
  | nil =>
    cases h
    exact .refl _
  | cons i is ih =>
    obtain ⟨t, ht, hrest⟩ := execSeq_cons_iff.1 h
    exact (exec_next ht).trans (ih hrest)

/-- No instruction reads the harness's offset (R237), so a move of it before the instruction is a move after it. -/
theorem exec_advance {i : Instr} {s t : State} (h : exec i s = .next t) (n : Nat) :
    exec i (s.advance n) = .next (t.advance n) := by
  cases i <;> cases h <;> rfl

theorem execSeq_advance {is : List Instr} {s u : State} (h : execSeq is s = .next u) (n : Nat) :
    execSeq is (s.advance n) = .next (u.advance n) := by
  induction is generalizing s with
  | nil =>
    cases h
    rfl
  | cons i is ih =>
    obtain ⟨t, ht, hrest⟩ := execSeq_cons_iff.1 h
    exact execSeq_cons_iff.2 ⟨t.advance n, exec_advance ht n, ih hrest⟩

theorem State.advance_advance (s : State) (m n : Nat) : (s.advance m).advance n = s.advance (m + n) := by
  simp [State.advance, Nat.add_assoc]

/-- The bytes at the moved offset are the bytes at the old one without those moved past. -/
theorem State.fetch_advance (s : State) (n : Nat) : (s.advance n).fetch = s.fetch.drop n :=
  List.drop_drop.symm

/-- A run that is at an end stays there, whatever turns are left (R236). -/
theorem harnessLoop_of_runEnd {s : State} {e : RunEnd} (h : runEnd s = some e) (k : Nat) : harnessLoop k s = some e := by
  cases k with
  | zero => exact h
  | succ k => simp [harnessLoop, h]

/-- A step that answers a next state is one turn of the loop, as it starts from no end (R236). -/
theorem harnessLoop_succ_of_step {s t : State} (h : step s = .next t) (k : Nat) :
    harnessLoop (k + 1) s = harnessLoop k t := by
  obtain ⟨hf, hp, -⟩ := step_next h
  simp [harnessLoop, runEnd, hf, hp, h]

/-- The loop runs an encoded list in order and comes to the bytes after it with the other turns left. -/
theorem harnessLoop_encoded {is : List Instr} {bs : List Byte} {s t : State} (hf : s.faulted = false)
    (hbytes : s.fetch = is.flatMap encode ++ bs) (ht : execSeq is s = .next t) (k : Nat) :
    harnessLoop (is.length + k) s = harnessLoop k (t.advance (is.flatMap encode).length) := by
  induction is generalizing s t with
  | nil =>
    cases ht
    rw [List.length_nil, Nat.zero_add]
    rfl
  | cons i is ih =>
    obtain ⟨u, hu, hrest⟩ := execSeq_cons_iff.1 ht
    obtain ⟨hfu, -, hprogram, hpc⟩ := exec_next hu
    rw [List.flatMap_cons, List.append_assoc] at hbytes
    have hstep : step s = .next (u.advance (encode i).length) :=
      step_instr hf (hbytes ▸ decodeOfEncode i _) hu
    have hfetch : (u.advance (encode i).length).fetch = is.flatMap encode ++ bs := by
      have hus : u.fetch = s.fetch := by rw [State.fetch, State.fetch, hprogram, hpc]
      rw [State.fetch_advance, hus, hbytes, List.drop_left]
    calc harnessLoop ((i :: is).length + k) s
      _ = harnessLoop (is.length + k) (u.advance (encode i).length) := by
        rw [List.length_cons, Nat.add_right_comm, harnessLoop_succ_of_step hstep]
      _ = harnessLoop k ((t.advance (encode i).length).advance (is.flatMap encode).length) :=
        ih (hfu.trans hf) hfetch (execSeq_advance hrest _)
      _ = harnessLoop k (t.advance ((i :: is).flatMap encode).length) := by
        rw [State.advance_advance, List.flatMap_cons, List.length_append]

/-- Each encoding has at least one byte, so a list has at most as many instructions as bytes (R238). -/
theorem length_le_length_encoded (is : List Instr) : is.length ≤ (is.flatMap encode).length := by
  induction is with
  | nil => exact Nat.le_refl 0
  | cons i is ih =>
    obtain ⟨hpos, -⟩ := decode_length (decode_encode i)
    rw [List.flatMap_cons, List.length_append, List.length_cons]
    omega

/-- The loop takes the fault of bytes that raise it, with one turn, and ends faulted at their offset (R211, R236). -/
theorem harnessLoop_succ_of_error {s : State} {r : FaultReport} (hf : s.faulted = false)
    (hp : s.pc ≠ s.program.length) (hr : resolve (.bytes s.fetch) = .error r) (k : Nat) :
    harnessLoop (k + 1) s = some (.faulted (s.raiseFault r) s.pc) := by
  rw [harnessLoop_succ_of_step (step_error hf hp hr)]
  exact harnessLoop_of_runEnd rfl k

/-- The run of an encoded list with bytes after it comes to those bytes, with a turn left for each of them or more. -/
theorem harnessRun_encoded {is : List Instr} {bs : List Byte} {d : InitState} {t : State}
    (ht : execSeq is (harnessStart (is.flatMap encode ++ bs) d) = .next t) :
    ∃ k, harnessRun (is.flatMap encode ++ bs) d =
      harnessLoop (k + bs.length) { t with pc := (is.flatMap encode).length } := by
  obtain ⟨k, hk⟩ := Nat.exists_eq_add_of_le (length_le_length_encoded is)
  obtain ⟨-, -, -, hpc⟩ := execSeq_next ht
  have hturns : (is.flatMap encode ++ bs).length = is.length + (k + bs.length) := by
    rw [List.length_append, hk, Nat.add_assoc]
  have hstart : t.pc + (is.flatMap encode).length = (is.flatMap encode).length := by
    rw [hpc]
    exact Nat.zero_add _
  refine ⟨k, ?_⟩
  rw [harnessRun, hturns, harnessLoop_encoded rfl rfl ht, State.advance, hstart]

/-- Settles O47: the loop comes to the end of the program, which is a normal end. -/
theorem straightLineRunEndsNormally : Obligations.StraightLineRunEndsNormally := by
  intro is d
  obtain ⟨t, ht⟩ := execSeq_total is (harnessStart (is.flatMap encode ++ []) d)
  obtain ⟨hf, -, hprogram, -⟩ := execSeq_next ht
  obtain ⟨k, hrun⟩ := harnessRun_encoded ht
  rw [List.append_nil] at ht hprogram hrun
  have hend : runEnd { t with pc := (is.flatMap encode).length } =
      some (.normal { t with pc := (is.flatMap encode).length }) := by
    simp [runEnd, hf, hprogram, harnessStart]
  exact ⟨t, ht, hrun.trans (harnessLoop_of_runEnd hend _)⟩

/-- Settles O48: the loop comes to the bytes that begin with no encoding and has a turn left, which takes their fault. -/
theorem faultIsPrecise : Obligations.FaultIsPrecise := by
  intro is bs d hne hbs
  obtain ⟨t, ht⟩ := execSeq_total is (harnessStart (is.flatMap encode ++ bs) d)
  obtain ⟨hf, -, hprogram, -⟩ := execSeq_next ht
  obtain ⟨k, hrun⟩ := harnessRun_encoded ht
  have hprog : t.program = is.flatMap encode ++ bs := hprogram
  have hpos : 0 < bs.length := List.length_pos_iff.2 hne
  have hbefore : (is.flatMap encode).length ≠ t.program.length := by
    rw [hprog, List.length_append]
    omega
  have hthere : resolve (.bytes (t.program.drop (is.flatMap encode).length)) = .error (illegalReport bs) := by
    rw [hprog, List.drop_left]
    exact resolve_of_no_encoding hbs
  obtain ⟨m, hm⟩ : ∃ m, k + bs.length = m + 1 := Nat.exists_eq_succ_of_ne_zero (by omega)
  rw [hm] at hrun
  have hfault := harnessLoop_succ_of_error (s := { t with pc := (is.flatMap encode).length }) hf hbefore hthere m
  exact ⟨t, ht, hrun.trans hfault⟩

/-- Every list of bytes is an encoded list of instructions followed by bytes that begin with no encoding: the instructions
are taken off its front for as long as there are any. -/
theorem exists_encoded_append (p : List Byte) :
    ∃ (is : List Instr) (bs : List Byte), p = is.flatMap encode ++ bs ∧ ∀ i : Instr, ¬ encode i <+: bs := by
  by_cases h : ∃ i : Instr, encode i <+: p
  · obtain ⟨i, rest, rfl⟩ := h
    obtain ⟨hpos, -⟩ := decode_length (decode_encode i)
    have hshorter : rest.length < (encode i ++ rest).length := by
      rw [List.length_append]
      omega
    obtain ⟨is, bs, rfl, hbs⟩ := exists_encoded_append rest
    exact ⟨i :: is, bs, by rw [List.flatMap_cons, List.append_assoc], hbs⟩
  · exact ⟨[], p, rfl, fun i hi => h ⟨i, hi⟩⟩
termination_by p.length

/-- Settles O49: the run of the bytes taken apart ends as O47 or as O48 says. -/
theorem runEndsWithinProgramLength : Obligations.RunEndsWithinProgramLength := by
  intro p d
  obtain ⟨is, bs, rfl, hbs⟩ := exists_encoded_append p
  by_cases hne : bs = []
  · subst hne
    rw [List.append_nil]
    obtain ⟨t, ht, hrun⟩ := straightLineRunEndsNormally is d
    obtain ⟨hf, -, hprogram, -⟩ := execSeq_next ht
    exact .inl ⟨_, hrun, hf, rfl, hprogram⟩
  · obtain ⟨t, ht, hrun⟩ := faultIsPrecise is bs d hne hbs
    obtain ⟨-, -, hprogram, -⟩ := execSeq_next ht
    refine .inr ⟨_, illegalReport bs, hrun, rfl, ?_, hprogram, rfl, ?_⟩
    · rw [List.length_append]
      exact Nat.lt_add_of_pos_right (List.length_pos_iff.2 hne)
    · rw [List.drop_left]
      exact resolve_of_no_encoding hbs

/-- Settles O50: the run of a sequence of encodings ends normally by O47, and that of any other bytes faulted by O48. -/
theorem safeRunsAreTheLegalPrograms : Obligations.SafeRunsAreTheLegalPrograms := by
  intro p d
  constructor
  · rintro ⟨u, hnormal⟩
    obtain ⟨is, bs, rfl, hbs⟩ := exists_encoded_append p
    by_cases hne : bs = []
    · exact ⟨is, by rw [hne, List.append_nil]⟩
    · obtain ⟨t, -, hfaulted⟩ := faultIsPrecise is bs d hne hbs
      cases hnormal.symm.trans hfaulted
  · rintro ⟨is, rfl⟩
    obtain ⟨t, -, hrun⟩ := straightLineRunEndsNormally is d
    exact ⟨_, hrun⟩

end Sys2Proof.Machine
end
